-- ==== Sys2Proof/Word.lean ====
section
/-! DEFINITION. The plain types of the engine's data: bytes, lanes, and a group of five. -/

namespace Sys2Proof

/-- One byte: an 8-bit number (spec R9, R54). -/
abbrev Byte := BitVec 8

/-- One lane: a 64-bit unsigned value (R6, R20). -/
abbrev Lane := BitVec 64

/-- Five like things, numbered 0 to 4: a row of lanes, or the five rows of the array (R20). -/
structure Five (α : Type) where
  x0 : α
  x1 : α
  x2 : α
  x3 : α
  x4 : α
  deriving DecidableEq, Repr

/-- The lane array `A`: five rows (y = 0..4) of five lanes (x = 0..4), 25 lanes of 64 bits (R20, R21). -/
abbrev Lanes := Five (Five Lane)

end Sys2Proof
end

