-- ==== Sys2Proof/Syntax.lean ====
section
/-! DEFINITION. The nine commands of the command port (R78), one constructor per row of the opcode map. -/

namespace Sys2Proof

/-- A command with its operands as R79 assembles them. -/
inductive Instr where
  /-- `STATUS` (R197): read the control registers. -/
  | status
  /-- `CLEAR` (R198): return to the reset state. -/
  | clear
  /-- `INIT v` (R183): start a computation; `v` is the 3-bit variant code, 6 and 7 among its values (R79, R81). -/
  | init (v : BitVec 3)
  /-- `ABSORB b` (R132): absorb one message byte. -/
  | absorb (b : Byte)
  /-- `FINAL` (R158): pad, permute, switch to squeezing. -/
  | final
  /-- `SQUEEZE` (R133): return the next output byte. -/
  | squeeze
  /-- `PERMUTE` (R111): the raw permutation. -/
  | permute
  /-- `RDLANE i` (R195): read lane `i`; the field is 5 bits wide and a well-formed `i` is at most 24. -/
  | rdlane (i : BitVec 5)
  /-- `WRLANE i, d` (R196): write lane `i`; its second operand `d` is the whole `wdata` (R79). -/
  | wrlane (i : BitVec 5) (d : Lane)
  deriving DecidableEq, Repr

end Sys2Proof
end

