-- ==== Sys2Proof/WellFormed.lean ====
section
/-! DEFINITION. Which commands have an encoding: the operand conditions of R79 and R81. -/

namespace Sys2Proof

/-- The lane index map is 0 to 24; 25 to 31 spell no lane (R60, R81 (e)). -/
def laneIndexOk (i : BitVec 5) : Bool := decide (i.toNat ≤ 24)

/-- A command is well formed when some legal command word spells it (R80). `INIT 6` and `INIT 7` are:
they are the command INIT with an invalid variant, not illegal words (R81). -/
def Instr.wellFormed : Instr → Bool
  | .status => true
  | .clear => true
  | .init _ => true
  | .absorb _ => true
  | .final => true
  | .squeeze => true
  | .permute => true
  | .rdlane i => laneIndexOk i
  | .wrlane i _ => laneIndexOk i

end Sys2Proof
end

