-- ==== Sys2Proof/Decode.lean ====
section
/-! DEFINITION. The command word CMD16 (R77 to R82): decoding, total on all words, and the encoder. -/

namespace Sys2Proof

/-- Why a word is illegal, one name per clause of R81. -/
inductive Illegal where
  /-- (a) `RSV ≠ 0`. -/
  | rsvNotZero
  /-- (b) `OPC ≥ 0x9`. -/
  | reservedOpcode
  /-- (c) a command without operand with `ARG ≠ 0`. -/
  | argNotZero
  /-- (d) INIT with `ARG[7:3] ≠ 0`. -/
  | initArgHigh
  /-- (e) RDLANE or WRLANE with `ARG[7:5] ≠ 0`. -/
  | laneArgHigh
  /-- (e) RDLANE or WRLANE with `ARG[4:0] ≥ 25`. -/
  | laneIndexHigh
  deriving DecidableEq, Repr

/-- `OPC = cmd[15:12]` (R77). -/
def opcField (cmd : BitVec 16) : BitVec 4 := cmd.extractLsb' 12 4

/-- `RSV = cmd[11:8]` (R77). -/
def rsvField (cmd : BitVec 16) : BitVec 4 := cmd.extractLsb' 8 4

/-- `ARG = cmd[7:0]` (R77). -/
def argField (cmd : BitVec 16) : Byte := cmd.extractLsb' 0 8

/-- A command without operand: all of ARG must be zero (R79, R81 (c)). -/
def decodeNoOperand (arg : Byte) (i : Instr) : Except Illegal Instr :=
  if arg = 0 then .ok i else .error .argNotZero

/-- INIT takes `ARG[2:0]`; `ARG[7:3]` must be zero (R79, R81 (d)). -/
def decodeInit (arg : Byte) : Except Illegal Instr :=
  if arg.extractLsb' 3 5 = 0 then .ok (.init (arg.extractLsb' 0 3)) else .error .initArgHigh

/-- RDLANE and WRLANE take `ARG[4:0]`, at most 24; `ARG[7:5]` must be zero (R79, R81 (e)). -/
def decodeLane (arg : Byte) (k : BitVec 5 → Instr) : Except Illegal Instr :=
  if arg.extractLsb' 5 3 ≠ 0 then .error .laneArgHigh
  else if laneIndexOk (arg.extractLsb' 0 5) then .ok (k (arg.extractLsb' 0 5))
  else .error .laneIndexHigh

/-- The command a word spells, with the write datum that came with it (R13, R77 to R82). Every word is
one of the nine commands or illegal. `wdata` enters WRLANE only (R79). -/
def decode (cmd : BitVec 16) (wdata : Lane) : Except Illegal Instr :=
  if rsvField cmd ≠ 0 then .error .rsvNotZero
  else
    match (opcField cmd).toNat with
    | 0 => decodeNoOperand (argField cmd) .status
    | 1 => decodeNoOperand (argField cmd) .clear
    | 2 => decodeInit (argField cmd)
    | 3 => .ok (.absorb (argField cmd))
    | 4 => decodeNoOperand (argField cmd) .final
    | 5 => decodeNoOperand (argField cmd) .squeeze
    | 6 => decodeNoOperand (argField cmd) .permute
    | 7 => decodeLane (argField cmd) .rdlane
    | 8 => decodeLane (argField cmd) fun i => .wrlane i wdata
    | _ => .error .reservedOpcode

/-- The opcode of each command (R78). -/
def opcodeOf : Instr → BitVec 4
  | .status => 0x0
  | .clear => 0x1
  | .init _ => 0x2
  | .absorb _ => 0x3
  | .final => 0x4
  | .squeeze => 0x5
  | .permute => 0x6
  | .rdlane _ => 0x7
  | .wrlane _ _ => 0x8

/-- The ARG field of each command (R79). -/
def argOf : Instr → Byte
  | .status => 0
  | .clear => 0
  | .init v => v.setWidth 8
  | .absorb b => b
  | .final => 0
  | .squeeze => 0
  | .permute => 0
  | .rdlane i => i.setWidth 8
  | .wrlane i _ => i.setWidth 8

/-- The command word of a command: `OPC<<12 | RSV<<8 | ARG` with RSV = 0 (R77). -/
def encode (i : Instr) : BitVec 16 := (opcodeOf i).setWidth 16 <<< 12 ||| (argOf i).setWidth 16

/-- The write datum that goes with the command word: WRLANE's second operand. Every other command
ignores `wdata` (R79); the encoder drives zero there. DESIGN CHOICE, log entry 6. -/
def encodeData : Instr → Lane
  | .wrlane _ d => d
  | .status => 0
  | .clear => 0
  | .init _ => 0
  | .absorb _ => 0
  | .final => 0
  | .squeeze => 0
  | .permute => 0
  | .rdlane _ => 0

/-- A row of the opcode map: a word is this row's command exactly when `cmd &&& mask = pattern` and the
further condition on `ARG[4:0]` holds (R80). -/
structure OpcodeRow where
  mnemonic : String
  pattern : BitVec 16
  mask : BitVec 16
  laneOperand : Bool
  deriving DecidableEq, Repr

/-- The nine rows of R80, in the table's order. -/
def opcodeRows : List OpcodeRow := [
  ⟨"STATUS", 0x0000, 0xFFFF, false⟩,
  ⟨"CLEAR", 0x1000, 0xFFFF, false⟩,
  ⟨"INIT", 0x2000, 0xFFF8, false⟩,
  ⟨"ABSORB", 0x3000, 0xFF00, false⟩,
  ⟨"FINAL", 0x4000, 0xFFFF, false⟩,
  ⟨"SQUEEZE", 0x5000, 0xFFFF, false⟩,
  ⟨"PERMUTE", 0x6000, 0xFFFF, false⟩,
  ⟨"RDLANE", 0x7000, 0xFFE0, true⟩,
  ⟨"WRLANE", 0x8000, 0xFFE0, true⟩]

/-- The word matches the row (R80). -/
def OpcodeRow.accepts (r : OpcodeRow) (cmd : BitVec 16) : Bool :=
  cmd &&& r.mask == r.pattern && (!r.laneOperand || laneIndexOk (cmd.extractLsb' 0 5))

/-- The mnemonic of a command (R78). -/
def mnemonicOf : Instr → String
  | .status => "STATUS"
  | .clear => "CLEAR"
  | .init _ => "INIT"
  | .absorb _ => "ABSORB"
  | .final => "FINAL"
  | .squeeze => "SQUEEZE"
  | .permute => "PERMUTE"
  | .rdlane _ => "RDLANE"
  | .wrlane _ _ => "WRLANE"

/-- The command the decoder reads from a word of the opcode table: one 16-bit word (R77), with the
write datum, which the table gives no bits, zero. DESIGN CHOICE, log entry 5. -/
def decodeTableWord (nbits w : Nat) : Option Instr :=
  if nbits ≤ 16 ∧ w < 2 ^ 16 then (decode (BitVec.ofNat 16 w) 0).toOption else none

end Sys2Proof
end

