-- ==== Sys2Proof/Machine/State.lean ====
section
/-! DEFINITION. The state of one engine and of its command port, the reasons the model stops, and reset. -/

namespace Sys2Proof.Machine

/-- The six variants VARIANT can hold; the codes 6 and 7 are never held (R24, R181). DEDUCED, log entry 2. -/
inductive Variant where
  | sha3_224
  | sha3_256
  | sha3_384
  | sha3_512
  | shake128
  | shake256
  deriving DecidableEq, Repr

/-- PHASE, the state of the sponge controller (R25). -/
inductive Phase where
  | idle
  | absorb
  | squeeze
  | error
  deriving DecidableEq, Repr

/-- The padding domain (R145), a function of VARIANT. -/
inductive Domain where
  | ordinary
  | extendable
  deriving DecidableEq, Repr

/-- The engine's four faults (R216). They are transitions to PHASE = ERROR (R222), not stops. -/
inductive FaultCode where
  | errVariant
  | errLength
  | errSeq
  | errIllegal
  deriving DecidableEq, Repr

/-- The response to a command: `rdata` and `rerr` (R75, R83). -/
structure Response where
  rdata : Lane
  rerr : BitVec 4
  deriving DecidableEq, Repr

/-- What the host does at the port (R15, R75, R250, R260): send a command with a write datum, let time
pass, or assert reset. -/
inductive HostEvent where
  | command (cmd : BitVec 16) (wdata : Lane)
  | wait
  | reset
  deriving DecidableEq, Repr

/-- One engine: the architectural tuple (A, VARIANT, PHASE, POS, OUTCNT, ERR) of 10_state.md, and the
port beside it: the response being given, and the host's inputs not yet taken. -/
structure State where
  /-- `A`, the lane array (R20). -/
  lanes : Lanes
  /-- `VARIANT`, 3 bits (R24). -/
  variant : Variant
  /-- `PHASE`, 2 bits (R25). -/
  phase : Phase
  /-- `POS`, 8 bits (R26). -/
  pos : BitVec 8
  /-- `OUTCNT`, 7 bits (R27). -/
  outcnt : BitVec 7
  /-- `ERR`, 4 bits (R28). -/
  err : BitVec 4
  /-- The response on the port: none while `rsp_valid` is 0 (R76). DESIGN CHOICE, log entry 1. -/
  rsp : Option Response
  /-- What the host will do next, oldest first (R62, R75). DESIGN CHOICE, log entry 1. -/
  pending : List HostEvent
  deriving DecidableEq, Repr

/-- Why the model stops. -/
inductive Fault where
  /-- Raised by ABSORB, FINAL and SQUEEZE when POS is 200 or more: the byte space is S[0..199] (R50), so
  the spec gives no such byte. No reachable state has such a POS (R38 (f)). Safe. DESIGN CHOICE, log entry 4. -/
  | noSuchByte
  deriving DecidableEq, Repr

/-- Why the model gives a command no meaning. -/
inductive Refusal where
  /-- Raised by an arm of `exec` for a command without a meaning; no arm does so. Safe. -/
  | notModelled (mnemonic : String)
  deriving DecidableEq, Repr

/-- A row of five zero lanes. -/
def zeroRow : Five Lane := ⟨0, 0, 0, 0, 0⟩

/-- The all-zero lane array (R40, R155 step 1). -/
def zeroLanes : Lanes := ⟨zeroRow, zeroRow, zeroRow, zeroRow, zeroRow⟩

/-- The machine right after reset (R40, R250): every lane and every control register zero, no response,
and nothing sent by the host yet. -/
def State.reset : State where
  lanes := zeroLanes
  variant := .sha3_224
  phase := .idle
  pos := 0
  outcnt := 0
  err := 0
  rsp := none
  pending := []

end Sys2Proof.Machine
end

