-- ==== Sys2Proof/Machine/Ops.lean ====
section
/-! DEFINITION. The shared operations: lanes and the byte view, responding, entering the error phase
(the fault entry of R222), leaving it, and reset. -/

namespace Sys2Proof.Machine

/-- Item `i` of five. -/
def fiveGet {α : Type} (r : Five α) (i : Fin 5) : α :=
  match i with
  | 0 => r.x0
  | 1 => r.x1
  | 2 => r.x2
  | 3 => r.x3
  | 4 => r.x4

/-- Item `i` of five replaced by `v`. -/
def fiveSet {α : Type} (r : Five α) (i : Fin 5) (v : α) : Five α :=
  match i with
  | 0 => { r with x0 := v }
  | 1 => { r with x1 := v }
  | 2 => { r with x2 := v }
  | 3 => { r with x3 := v }
  | 4 => { r with x4 := v }

/-- The five values `f 0` to `f 4`. -/
def fiveOf {α : Type} (f : Fin 5 → α) : Five α := ⟨f 0, f 1, f 2, f 3, f 4⟩

/-- `A[x][y]`: the lane at column `x`, row `y` (R11, R20). -/
def laneAt (A : Lanes) (x y : Fin 5) : Lane := fiveGet (fiveGet A y) x

/-- The lane array whose lane at column `x`, row `y` is `f x y`. -/
def ofXY (f : Fin 5 → Fin 5 → Lane) : Lanes := fiveOf fun y => fiveOf fun x => f x y

/-- The column `x = i mod 5` of lane index `i` (R21). -/
def columnOf (i : Fin 25) : Fin 5 := ⟨i.val % 5, Nat.mod_lt _ (by decide)⟩

/-- The row `y = i div 5` of lane index `i` (R21). -/
def rowOf (i : Fin 25) : Fin 5 := ⟨i.val / 5, Nat.div_lt_of_lt_mul i.isLt⟩

/-- The index `x + 5·y` of the lane at column `x`, row `y` (R21). -/
def laneIndex (x y : Fin 5) : Fin 25 := ⟨x.val + 5 * y.val, by omega⟩

/-- `L[i]`, that is `MemRead(8·i, 8)` (R12, R21). -/
def lane (A : Lanes) (i : Fin 25) : Lane := laneAt A (columnOf i) (rowOf i)

/-- `L[i] <- v`, that is `MemWrite(8·i, 8, v)` (R12, R196). -/
def setLane (A : Lanes) (i : Fin 25) (v : Lane) : Lanes :=
  fiveSet A (rowOf i) (fiveSet (fiveGet A (rowOf i)) (columnOf i) v)

/-- The lane that holds byte `p`: `p div 8` (R51). -/
def laneOfByte (p : Fin 200) : Fin 25 := ⟨p.val / 8, Nat.div_lt_of_lt_mul p.isLt⟩

/-- How far byte `p` stands above its lane's bit 0: `8·(p mod 8)` (R51). -/
def byteShift (p : Nat) : Nat := 8 * (p % 8)

/-- `S[p] = (L[p div 8] >> 8·(p mod 8)) & 0xFF`, that is `MemRead(p, 1)` (R12, R51). -/
def memRead (A : Lanes) (p : Fin 200) : Byte :=
  (lane A (laneOfByte p) >>> byteShift p.val).setWidth 8

/-- `MemWrite(p, 1, v)` (R12, R51). No command writes a byte this way; R12 defines MemXor by it. -/
def memWrite (A : Lanes) (p : Fin 200) (v : Byte) : Lanes :=
  setLane A (laneOfByte p)
    ((lane A (laneOfByte p) &&& ~~~((0xFF : Lane) <<< byteShift p.val)) |||
      (v.setWidth 64 <<< byteShift p.val))

/-- `MemXor(p, v)`: `L[i] <- L[i] ^ (zext_64(v) << 8k)` (R12, R51). A position outside S[0..199] names no
byte (R50), so nothing is there to change; the commands stop before they ask for one (`noSuchByte`). DEDUCED,
log entry 12. -/
def memXor (A : Lanes) (p : Nat) (v : Byte) : Lanes :=
  if h : p < 200 then
    setLane A (laneOfByte ⟨p, h⟩)
      (lane A (laneOfByte ⟨p, h⟩) ^^^ (v.setWidth 64 <<< byteShift p))
  else A

/-- The flat serialisation: the 200 bytes S[0] to S[199] in order (R51). -/
def byteView (A : Lanes) : List Byte := (List.finRange 200).map (memRead A)

/-- The code of a fault, as `rerr` and `ERR` show it (R216). -/
def faultCode : FaultCode → BitVec 4
  | .errVariant => 1
  | .errLength => 2
  | .errSeq => 3
  | .errIllegal => 4

/-- The state with `rdata = v`, `rerr = 0` on the port. -/
def State.answered (s : State) (v : Lane) : State := { s with rsp := some ⟨v, 0⟩ }

/-- `respond(v)` (R13): the command ends with `rdata = v`, `rerr = 0`. -/
def respond (v : Lane) (s : State) : Host.Outcome State Fault Refusal := .next (s.answered v)

/-- The state after `raise Fault(code)` (R222): ERR takes the code unless the engine was in ERROR already
(R224), PHASE becomes ERROR, the response is `rdata = 0`, `rerr = code`, and nothing else changes. -/
def State.faulted (s : State) (c : FaultCode) : State :=
  { s with
    err := if s.phase = .error then s.err else faultCode c
    phase := .error
    rsp := some ⟨0, faultCode c⟩ }

/-- `raise Fault(code)`: fault entry (R222). It is a next state of the machine. -/
def raise (c : FaultCode) (s : State) : Host.Outcome State Fault Refusal := .next (s.faulted c)

/-- All lanes and all control registers at their reset values (R40): what CLEAR does (R198) and what
INIT starts from (R183). With INIT and reset, this is the only way out of the error phase (R225). -/
def State.cleared (s : State) : State :=
  { s with
    lanes := zeroLanes
    variant := .sha3_224
    phase := .idle
    pos := 0
    outcnt := 0
    err := 0 }

/-- A computation with variant `w` just started (R183). -/
def State.started (s : State) (w : Variant) : State :=
  { s.cleared with variant := w, phase := .absorb }

/-- Asserting reset (R250): the reset state and no response; the host's later inputs stay to come. -/
def takeReset (s : State) : State := { s.cleared with rsp := none }

/-- The host lets time pass (R260): the engine holds its state and gives no response (R76). -/
def takeWait (s : State) : State := { s with rsp := none }

end Sys2Proof.Machine
end

