-- ==== Sys2Proof/Machine/Variant.lean ====
section
/-! DEFINITION. The variant configuration (44_variant.md): codes and the functions RATE, CAP, DOMAIN, DLEN. -/

namespace Sys2Proof.Machine

/-- The 3-bit code of a variant (R181). -/
def variantCode : Variant → BitVec 3
  | .sha3_224 => 0
  | .sha3_256 => 1
  | .sha3_384 => 2
  | .sha3_512 => 3
  | .shake128 => 4
  | .shake256 => 5

/-- The variant a code names; 6 and 7 name none (R181, R184). -/
def variantOfCode (v : BitVec 3) : Option Variant :=
  match v.toNat with
  | 0 => some .sha3_224
  | 1 => some .sha3_256
  | 2 => some .sha3_384
  | 3 => some .sha3_512
  | 4 => some .shake128
  | 5 => some .shake256
  | _ => none

/-- `RATE(v)`: bytes absorbed or squeezed per permutation (R180, R182). -/
def rate : Variant → Nat
  | .sha3_224 => 144
  | .sha3_256 => 136
  | .sha3_384 => 104
  | .sha3_512 => 72
  | .shake128 => 168
  | .shake256 => 136

/-- `CAP(v)`: the capacity in bytes (R180, R182). -/
def cap : Variant → Nat
  | .sha3_224 => 56
  | .sha3_256 => 64
  | .sha3_384 => 96
  | .sha3_512 => 128
  | .shake128 => 32
  | .shake256 => 64

/-- `DOMAIN(v)`: the padding domain (R180, R182). -/
def domain : Variant → Domain
  | .sha3_224 => .ordinary
  | .sha3_256 => .ordinary
  | .sha3_384 => .ordinary
  | .sha3_512 => .ordinary
  | .shake128 => .extendable
  | .shake256 => .extendable

/-- `DLEN(v)`: the digest length of a fixed variant, none for an XOF variant (R182). A variant is fixed,
`VARIANT ≤ 3`, exactly when this is some length (R17). -/
def dlen : Variant → Option Nat
  | .sha3_224 => some 28
  | .sha3_256 => some 32
  | .sha3_384 => some 48
  | .sha3_512 => some 64
  | .shake128 => none
  | .shake256 => none

end Sys2Proof.Machine
end

