-- ==== Sys2Proof/Machine/Flags.lean ====
section
/-! DEFINITION. The engine's only flag, DONE, and the status word (R29). There are no condition codes (R33). -/

namespace Sys2Proof.Machine

/-- The 2-bit value of PHASE (R25). -/
def phaseCode : Phase → BitVec 2
  | .idle => 0
  | .absorb => 1
  | .squeeze => 2
  | .error => 3

/-- A fixed variant has delivered all its DLEN bytes (R133, R185). -/
def State.delivered (s : State) : Bool := decide (dlen s.variant = some s.outcnt.toNat)

/-- `DONE` (R29): 1 in phase SQUEEZE of a fixed variant with `OUTCNT = DLEN`. -/
def State.done (s : State) : Bool := decide (s.phase = .squeeze) && s.delivered

/-- `STATUSWORD = PHASE | DONE<<2 | VARIANT<<4 | POS<<8 | ERR<<16 | OUTCNT<<20` (R29). -/
def statusWord (s : State) : Lane :=
  (phaseCode s.phase).setWidth 64 |||
  (BitVec.ofBool s.done).setWidth 64 <<< 2 |||
  (variantCode s.variant).setWidth 64 <<< 4 |||
  s.pos.setWidth 64 <<< 8 |||
  s.err.setWidth 64 <<< 16 |||
  s.outcnt.setWidth 64 <<< 20

end Sys2Proof.Machine
end

