-- ==== Sys2Proof/Machine/Keccak.lean ====
section
/-! DEFINITION. The permutation Keccak-p[1600,24] (40_permutation.md): five step mappings as pure functions
of a whole state (R101), the round, the 24-round driver, and the constant tables with their generating rules. -/

namespace Sys2Proof.Machine

/-- `ROTL64(v, n)` for n in 0..63 (R10). Other amounts: DEDUCED, log entry 12. -/
def rotl64 (v : Lane) (n : Nat) : Lane :=
  if n = 0 then v else (v <<< n) ||| (v >>> (64 - n))

/-- The table of R31 as it stands there, two rounds to a row: `RC[r]` and `RC[r + 12]`. The values are general
knowledge in the spec itself. PRESUMED, log entry 8. -/
def roundConstantRow (r : Fin 12) : Lane × Lane :=
  match r with
  | 0 => (0x0000000000000001, 0x000000008000808B)
  | 1 => (0x0000000000008082, 0x800000000000008B)
  | 2 => (0x800000000000808A, 0x8000000000008089)
  | 3 => (0x8000000080008000, 0x8000000000008003)
  | 4 => (0x000000000000808B, 0x8000000000008002)
  | 5 => (0x0000000080000001, 0x8000000000000080)
  | 6 => (0x8000000080008081, 0x000000000000800A)
  | 7 => (0x8000000000008009, 0x800000008000000A)
  | 8 => (0x000000000000008A, 0x8000000080008081)
  | 9 => (0x0000000000000088, 0x8000000000008080)
  | 10 => (0x0000000080008009, 0x0000000080000001)
  | 11 => (0x000000008000000A, 0x8000000080008008)

/-- `RC[ir]` (R31): the left half of the table up to round 11, the right half from round 12 on. -/
def roundConstant (ir : Fin 24) : Lane :=
  if h : ir.val < 12 then (roundConstantRow ⟨ir.val, h⟩).1
  else (roundConstantRow ⟨ir.val - 12, by omega⟩).2

/-- The rotation offsets, row by row (R32). -/
def rhoTable : Five (Five Nat) :=
  ⟨⟨0, 1, 62, 28, 27⟩,
   ⟨36, 44, 6, 55, 20⟩,
   ⟨3, 10, 43, 25, 39⟩,
   ⟨41, 45, 15, 21, 8⟩,
   ⟨18, 2, 61, 56, 14⟩⟩

/-- `RHO[x][y]` (R32). -/
def rhoOffset (x y : Fin 5) : Nat := fiveGet (fiveGet rhoTable y) x

/-- The parity `C[x]` of column `x` (R102). -/
def columnParity (A : Lanes) (x : Fin 5) : Lane :=
  laneAt A x 0 ^^^ laneAt A x 1 ^^^ laneAt A x 2 ^^^ laneAt A x 3 ^^^ laneAt A x 4

/-- `D[x] = C[(x + 4) mod 5] ^ ROTL64(C[(x + 1) mod 5], 1)` (R102). -/
def thetaMask (A : Lanes) (x : Fin 5) : Lane :=
  columnParity A (x + 4) ^^^ rotl64 (columnParity A (x + 1)) 1

/-- `Theta` (R102). -/
def theta (A : Lanes) : Lanes := ofXY fun x y => laneAt A x y ^^^ thetaMask A x

/-- `Rho` (R103). -/
def rho (A : Lanes) : Lanes := ofXY fun x y => rotl64 (laneAt A x y) (rhoOffset x y)

/-- `Pi`: `A'[x][y] = A[(x + 3·y) mod 5][x]` (R104). -/
def pi (A : Lanes) : Lanes := ofXY fun x y => laneAt A (x + 3 * y) x

/-- `Chi` (R105). -/
def chi (A : Lanes) : Lanes :=
  ofXY fun x y => laneAt A x y ^^^ (~~~(laneAt A (x + 1) y) &&& laneAt A (x + 2) y)

/-- `Iota` (R106). -/
def iota (A : Lanes) (ir : Fin 24) : Lanes := setLane A 0 (lane A 0 ^^^ roundConstant ir)

/-- `Rnd(A, ir) = Iota(Chi(Pi(Rho(Theta(A)))), ir)` (R107). -/
def rnd (A : Lanes) (ir : Fin 24) : Lanes := iota (chi (pi (rho (theta A)))) ir

/-- `KeccakP`: `Rnd` for ir = 0, 1, ..., 23 in this order (R108). -/
def keccakP (A : Lanes) : Lanes := (List.finRange 24).foldl rnd A

/-- The state before round `n` of a permutation of `A` (R108), for n up to 24. -/
def roundsFrom (A : Lanes) (n : Nat) : Lanes := ((List.finRange 24).take n).foldl rnd A

/-- One step of the 8-bit feedback register of R31: prepend a 0, fold the bit that fell out into
positions 0, 4, 5 and 6. -/
def lfsrStep : List Bool → List Bool
  | [b0, b1, b2, b3, b4, b5, b6, b7] =>
    [b7, b0, b1, b2, xor b3 b7, xor b4 b7, xor b5 b7, b6]
  | r => r

/-- `rc(t)` (R31). -/
def rcBit (t : Nat) : Bool :=
  (Nat.iterate lfsrStep (t % 255) [true, false, false, false, false, false, false, false]).headD false

/-- The round constant the generating rule of R31 gives: bit `2^j − 1` is `rc(j + 7·ir)`. -/
def rcGenerated (ir : Nat) : Lane :=
  (List.range 7).foldl
    (fun v j => if rcBit (j + 7 * ir) then v ||| ((1 : Lane) <<< (2 ^ j - 1)) else v) 0

/-- The walk of R32: position number `t`, from (1, 0) by `(x, y) <- (y, 2x + 3y)`. -/
def rhoWalk : Nat → Fin 5 × Fin 5
  | 0 => (1, 0)
  | t + 1 => ((rhoWalk t).2, 2 * (rhoWalk t).1 + 3 * (rhoWalk t).2)

/-- The offset the walk gives its position number `t`: `((t + 1)(t + 2) / 2) mod 64` (R32). -/
def rhoWalkOffset (t : Nat) : Nat := ((t + 1) * (t + 2) / 2) % 64

end Sys2Proof.Machine
end

