-- ==== Sys2Proof/Machine/Operands.lean ====
section
/-! DEFINITION. The operand forms of the commands: a lane by its index (R195, R196), the byte at POS
(R132, R133, R158), and the phase a command needs (R219). -/

namespace Sys2Proof.Machine

/-- A lane operand: `i` in 0..24 names lane `L[i]`; 25 to 31 name no lane and the command is an illegal
encoding (R60, R81 (e)), whatever the phase (R84). DEDUCED, log entry 7. -/
def withLane (i : BitVec 5) (s : State) (k : Fin 25 → Host.Outcome State Fault Refusal) :
    Host.Outcome State Fault Refusal :=
  if h : i.toNat < 25 then k ⟨i.toNat, h⟩ else raise .errIllegal s

/-- A command that is legal in phase `p` only: elsewhere it raises ERR_SEQ (R219). -/
def inPhase (p : Phase) (s : State) (k : Host.Outcome State Fault Refusal) :
    Host.Outcome State Fault Refusal :=
  if s.phase = p then k else raise .errSeq s

/-- The byte operand `S[p]`, which exists for `p` in 0..199 only (R50). DESIGN CHOICE, log entry 4. -/
def withByte (p : Nat) (k : Fin 200 → Host.Outcome State Fault Refusal) :
    Host.Outcome State Fault Refusal :=
  if h : p < 200 then k ⟨p, h⟩ else .fault .noSuchByte

end Sys2Proof.Machine
end

