-- ==== Sys2Proof/Machine/BytePath.lean ====
section
/-! DEFINITION. The byte path between host and state: ABSORB and SQUEEZE (41_absorb_squeeze.md). -/

namespace Sys2Proof.Machine

/-- One message byte absorbed at POS, with the permutation when the block is full (R132). Outside the reachable
states: DEDUCED, log entry 11. -/
def State.absorbed (s : State) (b : Byte) : State :=
  let A := memXor s.lanes s.pos.toNat b
  let pos := s.pos + 1
  if pos.toNat = rate s.variant then { s with lanes := keccakP A, pos := 0 }
  else { s with lanes := A, pos := pos }

/-- `ABSORB b` (R132). -/
def execAbsorb (b : Byte) (s : State) : Host.Outcome State Fault Refusal :=
  inPhase .absorb s (withByte s.pos.toNat fun _ => respond 0 (s.absorbed b))

/-- The block is used up and another byte is wanted: permute and start at position 0 (R133). -/
def State.refilled (s : State) : State :=
  if s.pos.toNat = rate s.variant then { s with lanes := keccakP s.lanes, pos := 0 } else s

/-- The output byte at POS is taken: POS + 1, and OUTCNT + 1 for a fixed variant (R133). -/
def State.squeezed (s : State) : State :=
  { s with
    pos := s.pos + 1
    outcnt := if (dlen s.variant).isSome then s.outcnt + 1 else s.outcnt }

/-- `SQUEEZE` (R133): the length check of R185, the lazy permutation, the byte at POS. -/
def execSqueeze (s : State) : Host.Outcome State Fault Refusal :=
  inPhase .squeeze s <|
    if s.delivered then raise .errLength s
    else withByte s.refilled.pos.toNat fun p =>
      respond ((memRead s.refilled.lanes p).setWidth 64) s.refilled.squeezed

end Sys2Proof.Machine
end

