-- ==== Sys2Proof/Machine/Control.lean ====
section
/-! DEFINITION. The control commands STATUS, CLEAR and INIT (45_lane_access_system.md, 44_variant.md). -/

namespace Sys2Proof.Machine

/-- `STATUS` (R197): `respond(STATUSWORD)`, in every phase. -/
def execStatus (s : State) : Host.Outcome State Fault Refusal := respond (statusWord s) s

/-- `CLEAR` (R198): every piece of state to its reset value, in every phase. -/
def execClear (s : State) : Host.Outcome State Fault Refusal := respond 0 s.cleared

/-- `INIT v` (R183, R184): in every phase; codes 6 and 7 raise ERR_VARIANT. -/
def execInit (v : BitVec 3) (s : State) : Host.Outcome State Fault Refusal :=
  match variantOfCode v with
  | none => raise .errVariant s
  | some w => respond 0 (s.started w)

end Sys2Proof.Machine
end

