-- ==== Sys2Proof/Machine/LaneAccess.lean ====
section
/-! DEFINITION. The lane access commands RDLANE and WRLANE (45_lane_access_system.md). -/

namespace Sys2Proof.Machine

/-- `RDLANE i` (R195): `respond(L[i])`, in every phase. -/
def execRdlane (i : BitVec 5) (s : State) : Host.Outcome State Fault Refusal :=
  withLane i s fun k => respond (lane s.lanes k) s

/-- `WRLANE i, d` (R196): `L[i] <- d`, in phase IDLE only; an illegal index comes first (R84). -/
def execWrlane (i : BitVec 5) (d : Lane) (s : State) : Host.Outcome State Fault Refusal :=
  withLane i s fun k => inPhase .idle s (respond 0 { s with lanes := setLane s.lanes k d })

end Sys2Proof.Machine
end

