-- ==== Sys2Proof/Machine/Permute.lean ====
section
/-! DEFINITION. The raw permutation command PERMUTE (40_permutation.md, R111). -/

namespace Sys2Proof.Machine

/-- `PERMUTE` (R111): `A <- KeccakP(A)`, in phase IDLE only. -/
def execPermute (s : State) : Host.Outcome State Fault Refusal :=
  inPhase .idle s (respond 0 { s with lanes := keccakP s.lanes })

end Sys2Proof.Machine
end

