-- ==== Sys2Proof/Machine/Padding.lean ====
section
/-! DEFINITION. The multi-rate padding unit (42_padding.md). -/

namespace Sys2Proof.Machine

/-- `SUFFIX(dom)` (R145). -/
def suffix : Domain → Byte
  | .ordinary => 0x06
  | .extendable => 0x1F

/-- `COMBINED(dom)`, the suffix and the terminator in one byte (R145). -/
def combined : Domain → Byte
  | .ordinary => 0x86
  | .extendable => 0x9F

/-- `TERMINATOR` (R145). -/
def terminator : Byte := 0x80

/-- `PadBlock(tail, rate, dom)` (R146): the final block of exactly `rate` bytes. -/
def padBlock (tail : List Byte) (rate : Nat) (dom : Domain) : List Byte :=
  let pos := tail.length
  let q := rate - pos
  let blk := tail ++ List.replicate q 0
  if q = 1 then blk.set pos (combined dom)
  else (blk.set pos (suffix dom)).set (rate - 1) terminator

/-- `PadXor(A, pos, rate, dom)` (R148): the padding as the engine applies it. The test `rate − pos = 1` is
written without subtraction. -/
def padXor (A : Lanes) (pos rate : Nat) (dom : Domain) : Lanes :=
  if pos + 1 = rate then memXor A pos (combined dom)
  else memXor (memXor A pos (suffix dom)) (rate - 1) terminator

end Sys2Proof.Machine
end

