-- ==== Sys2Proof/Machine/Sponge.lean ====
section
/-! DEFINITION. The sponge controller's command FINAL (43_sponge.md). -/

namespace Sys2Proof.Machine

/-- The message ended: padded, permuted, ready to squeeze (R158). -/
def State.finished (s : State) : State :=
  { s with
    lanes := keccakP (padXor s.lanes s.pos.toNat (rate s.variant) (domain s.variant))
    phase := .squeeze
    pos := 0
    outcnt := 0 }

/-- `FINAL` (R158). -/
def execFinal (s : State) : Host.Outcome State Fault Refusal :=
  inPhase .absorb s (withByte s.pos.toNat fun _ => respond 0 s.finished)

end Sys2Proof.Machine
end

