-- ==== Sys2Proof/Machine/Port.lean ====
section
/-! DEFINITION. The command port as one atomic step per transaction (R75, R84), and the events of the host. -/

namespace Sys2Proof.Machine

/-- One transaction on the port (R75): an illegal word raises ERR_ILLEGAL whatever the state (R81, R220),
any other word is its command, whose own checks come after decoding (R84). -/
def transact (cmd : BitVec 16) (wdata : Lane) (s : State) : Host.Outcome State Fault Refusal :=
  match decode cmd wdata with
  | .error _ => raise .errIllegal s
  | .ok i => exec i s

/-- One event of the host (R15, R250, R260). -/
def handleEvent (e : HostEvent) (s : State) : Host.Outcome State Fault Refusal :=
  match e with
  | .command cmd wdata => transact cmd wdata s
  | .wait => .next (takeWait s)
  | .reset => .next (takeReset s)

/-- The engine takes the host's oldest pending event; when there is none, the host is waiting, and the
engine does nothing of its own accord (R15, R260). DESIGN CHOICE, log entry 1. -/
def servePort (s : State) : Host.Outcome State Fault Refusal :=
  match s.pending with
  | [] => .next (takeWait s)
  | e :: es => handleEvent e { s with pending := es }

end Sys2Proof.Machine
end

