-- ==== Sys2Proof/Machine/Step.lean ====
section
/-! DEFINITION. One step of the machine, and how a command word reaches it. -/

namespace Sys2Proof.Machine

/-- One step (R75, R62): the engine serves the oldest pending event of the host. -/
def step (s : State) : Host.Outcome State Fault Refusal := servePort s

/-- The state in which the host's next transaction carries the command word `w`, with a zero write datum:
commands come from the host, not from a memory (R35). A command word has 16 bits, whatever `nbits`.
DESIGN CHOICE, log entry 5. -/
def State.withFetchWord (s : State) (_nbits w : Nat) : State :=
  { s with pending := .command (BitVec.ofNat 16 w) 0 :: s.pending }

end Sys2Proof.Machine
end

