-- ==== Sys2Proof/Config.lean ====
section
/-! DEFINITION. The two open parameters of R8, which the model takes as an argument and no command reads. -/

namespace Sys2Proof

/-- The parameters the spec leaves open (R8): the number of engines in a system, and the clock cycles
from the acceptance of a command to its response. Both are at least 1. -/
structure Config where
  /-- `N_INST` (R8, R232). -/
  nInst : Nat
  nInst_pos : 1 ≤ nInst
  /-- `LATENCY(cmd, state)`, a command being a pair of a word and a write datum (R8, R13, R257). -/
  latency : BitVec 16 → Lane → Machine.State → Nat
  latency_pos : ∀ cmd d s, 1 ≤ latency cmd d s

end Sys2Proof
end

