-- ==== Sys2Proof/Machine/Handshake.lean ====
section
/-! DEFINITION. The signal-level form of the port (R76): one clock cycle at a time, with reset (R250) and the open
latency of R8. The atomic step of Machine/Step.lean is the machine; this is the handshake around it. -/

namespace Sys2Proof.Machine

/-- The port's inputs in one cycle (R76). -/
structure PortIn where
  rst : Bool
  cmdValid : Bool
  cmd : BitVec 16
  wdata : Lane
  deriving DecidableEq, Repr

/-- The port's outputs in one cycle (R76). `rsp_valid` is whether there is a response; R76 gives `rdata`
and `rerr` no value while there is none, and neither does the model. -/
structure PortOut where
  cmdReady : Bool
  rsp : Option Response
  deriving DecidableEq, Repr

/-- The command in flight, if any (R76: at most one): the cycles still to pass before its response, and
the response. -/
inductive Flight where
  | ready
  | busy (left : Nat) (rsp : Option Response)
  deriving DecidableEq, Repr

/-- The engine with the command in flight. -/
structure Clocked where
  core : State
  flight : Flight
  deriving DecidableEq, Repr

/-- The outputs in a cycle (R76, R250): nothing while `rst` is 1; ready exactly when no command is in
flight; the response in the last cycle of a flight. -/
def portOut (inp : PortIn) (c : Clocked) : PortOut :=
  if inp.rst then ⟨false, none⟩
  else
    match c.flight with
    | .ready => ⟨true, none⟩
    | .busy 0 r => ⟨false, r⟩
    | .busy (_ + 1) _ => ⟨false, none⟩

/-- A command accepted (R76): it takes effect as one atomic step, and its response is LATENCY cycles
away. When the effect is written within the flight is not observable (R58), reset aside, which
abandons it (R250). DESIGN CHOICE, log entry 9. -/
def accept (cfg : Config) (cmd : BitVec 16) (wdata : Lane) (s : State) :
    Host.Outcome Clocked Fault Refusal :=
  match transact cmd wdata s with
  | .next t => .next ⟨t, .busy (cfg.latency cmd wdata s - 1) t.rsp⟩
  | .fault r => .fault r
  | .refused r => .refused r

/-- A rising edge of `clk` (R76, R250). -/
def clockEdge (cfg : Config) (inp : PortIn) (c : Clocked) : Host.Outcome Clocked Fault Refusal :=
  if inp.rst then .next ⟨takeReset c.core, .ready⟩
  else
    match c.flight with
    | .busy (n + 1) r => .next { c with flight := .busy n r }
    | .busy 0 _ => .next { c with flight := .ready }
    | .ready => if inp.cmdValid then accept cfg inp.cmd inp.wdata c.core else .next c

/-- A sequence of cycles: the state after them and the outputs in each, oldest first; nothing if the model
stops. -/
def runClock (cfg : Config) : List PortIn → Clocked → Option (Clocked × List PortOut)
  | [], c => some (c, [])
  | i :: is, c =>
    match clockEdge cfg i c with
    | .next d => (runClock cfg is d).map fun r => (r.1, portOut i c :: r.2)
    | .fault _ => none
    | .refused _ => none

end Sys2Proof.Machine
end

