-- ==== Sys2Proof/Machine/Instances.lean ====
section
/-! DEFINITION. Several engines in one system (R68, R232): each has its own complete state and its own port. -/

namespace Sys2Proof.Machine

/-- A system of `N_INST` engines (R8, R232). -/
abbrev Engines (cfg : Config) := Vector State cfg.nInst

/-- A host event at the port of engine `k`: that engine handles it, and no other changes (R232). -/
def Engines.event {cfg : Config} (sys : Engines cfg) (k : Fin cfg.nInst) (e : HostEvent) :
    Host.Outcome (Engines cfg) Fault Refusal :=
  match handleEvent e sys[k] with
  | .next t => .next (sys.set k t)
  | .fault r => .fault r
  | .refused r => .refused r

end Sys2Proof.Machine
end

