-- ==== Sys2Proof/Machine/Pseudo.lean ====
section
/-! DEFINITION. What a host writes: a command as a port event, the pseudo-commands of R86, and the assembler
syntax of R85. -/

namespace Sys2Proof.Machine

/-- A command sent over the port. -/
def send (i : Instr) : HostEvent := .command (encode i) (encodeData i)

/-- `ABSORBS "text"` (R86): one ABSORB per character, its ASCII code the operand. -/
def absorbs (text : String) : List HostEvent :=
  text.toList.map fun c => send (.absorb (BitVec.ofNat 8 c.toNat))

/-- `ABSORBN b, n` (R86). -/
def absorbN (b : Byte) (n : Nat) : List HostEvent := List.replicate n (send (.absorb b))

/-- `SQUEEZEN n` (R86). -/
def squeezeN (n : Nat) : List HostEvent := List.replicate n (send .squeeze)

/-- `RDSTATE` (R86): RDLANE 0 to RDLANE 24. -/
def rdState : List HostEvent := (List.finRange 25).map fun i => send (.rdlane (BitVec.ofNat 5 i.val))

/-- WRLANE 0 to WRLANE 24 with the lanes of `A` (the load of R199). -/
def wrState (A : Lanes) : List HostEvent :=
  (List.finRange 25).map fun i => send (.wrlane (BitVec.ofNat 5 i.val) (lane A i))

/-- `HASH v, m, n` (R86): INIT v, one ABSORB per message byte, FINAL, n times SQUEEZE. -/
def hashCommands (v : BitVec 3) (m : List Byte) (n : Nat) : List HostEvent :=
  send (.init v) :: (m.map fun b => send (.absorb b)) ++ send .final :: squeezeN n

/-- A command in the assembler syntax of R85, its operands in decimal. DESIGN CHOICE, log entry 13. -/
def assembler (i : Instr) : String :=
  match i with
  | .status => mnemonicOf i
  | .clear => mnemonicOf i
  | .init v => mnemonicOf i ++ " " ++ toString v.toNat
  | .absorb b => mnemonicOf i ++ " " ++ toString b.toNat
  | .final => mnemonicOf i
  | .squeeze => mnemonicOf i
  | .permute => mnemonicOf i
  | .rdlane k => mnemonicOf i ++ " " ++ toString k.toNat
  | .wrlane k d => mnemonicOf i ++ " " ++ toString k.toNat ++ ", " ++ toString d.toNat

end Sys2Proof.Machine
end

