-- ==== Sys2Proof/Machine/Reference.lean ====
section
/-! DEFINITION. The reference functions of the source, as pure functions on values: AbsorbBlock and SqueezeBlock
(41_absorb_squeeze.md), Sponge and Digest (43_sponge.md), and the hex rendering of R18. No command calls them;
the spec relates the commands to them. -/

namespace Sys2Proof.Machine

/-- `AbsorbBlock(A, d, rate)` (R130): each byte of `d` XORed into the state byte at its position, up to
`rate` bytes. -/
def absorbBlock (A : Lanes) (d : List Byte) (rate : Nat) : Lanes :=
  ((List.range rate).zip d).foldl (fun A pb => memXor A pb.1 pb.2) A

/-- `SqueezeBlock(A, n)` (R131): the bytes S[0] to S[n−1]. -/
def squeezeBlock (A : Lanes) (n : Nat) : List Byte := ((List.finRange 200).take n).map (memRead A)

/-- Block `j` of the message: `m[j·rate .. (j+1)·rate − 1]` (R155 step 2). -/
def messageBlock (m : List Byte) (rate j : Nat) : List Byte := (m.drop (j * rate)).take rate

/-- The first `k` full blocks absorbed, each followed by the permutation (R155 steps 1 and 2). -/
def absorbBlocks (rate : Nat) (m : List Byte) (k : Nat) : Lanes :=
  (List.range k).foldl (fun A j => keccakP (absorbBlock A (messageBlock m rate j) rate)) zeroLanes

/-- The message bytes left over after the full blocks (R155 step 3). -/
def messageTail (rate : Nat) (m : List Byte) : List Byte := m.drop (m.length / rate * rate)

/-- The state after the padded last block (R155 step 3). -/
def absorbMessage (rate : Nat) (dom : Domain) (m : List Byte) : Lanes :=
  keccakP (absorbBlock (absorbBlocks rate m (m.length / rate)) (padBlock (messageTail rate m) rate dom) rate)

/-- The loop of R155 step 4. Every turn adds at least one byte, so `n` turns are enough. -/
def squeezeLoop (rate n : Nat) : Nat → Lanes → List Byte → List Byte
  | 0, _, out => out
  | turns + 1, A, out =>
    if out.length < n then
      let B := if out.length = 0 then A else keccakP A
      squeezeLoop rate n turns B (out ++ squeezeBlock B (min rate (n - out.length)))
    else out

/-- `Sponge(rate, dom, m, n)` (R155). -/
def sponge (rate : Nat) (dom : Domain) (m : List Byte) (n : Nat) : List Byte :=
  squeezeLoop rate n n (absorbMessage rate dom m) []

/-- `Digest(v, m, n)` (R156): for a fixed variant `n` must be DLEN(v), and there is no digest otherwise. -/
def digest (v : Variant) (m : List Byte) (n : Nat) : Option (List Byte) :=
  if dlen v = none ∨ dlen v = some n then some (sponge (rate v) (domain v) m n) else none

/-- One hexadecimal digit, lower case (R18). -/
def hexDigit (n : Nat) : Char :=
  if n < 10 then Char.ofNat (n + 48) else Char.ofNat (n + 87)

/-- A byte sequence rendered as two digits per byte, the high nibble first (R18). -/
def hexRender (bs : List Byte) : List Char :=
  bs.flatMap fun b => [hexDigit (b.toNat / 16), hexDigit (b.toNat % 16)]

end Sys2Proof.Machine
end

