-- ==== Sys2Proof/Machine/Serve.lean ====
section
/-! DEFINITION. A sequence of host events served one after the other, with the responses (R62). -/

namespace Sys2Proof.Machine

/-- The events of `es` served in order (R62): the state after them, and what the port gave at each of
them, oldest first; nothing if the model stops. -/
def serve : List HostEvent → State → Option (State × List (Option Response))
  | [], s => some (s, [])
  | e :: es, s =>
    match handleEvent e s with
    | .next t => (serve es t).map fun r => (r.1, t.rsp :: r.2)
    | .fault _ => none
    | .refused _ => none

/-- The responses to the events that satisfy `p`, in order. -/
def responsesTo (p : HostEvent → Bool) (es : List HostEvent) (rs : List (Option Response)) :
    List Response :=
  (es.zip rs).filterMap fun er => if p er.1 then er.2 else none

/-- The event is the command SQUEEZE. -/
def isSqueeze : HostEvent → Bool
  | .command cmd _ => cmd == 0x5000
  | .wait => false
  | .reset => false

/-- The event leaves the engine's state alone: STATUS, RDLANE i with i ≤ 24, or a wait (R59, R161). -/
def isObserver : HostEvent → Bool
  | .command cmd wdata =>
    match decode cmd wdata with
    | .ok .status => true
    | .ok (.rdlane _) => true
    | _ => false
  | .wait => true
  | .reset => false

end Sys2Proof.Machine
end

