-- ==== Sys2Proof/Safety.lean ====
section
/-! DEFINITION. The terms the statements use, transcribed from the spec's tables: the invariant of R38, the state
after a fault (R222), the legal phases (R219), the fault reported (R221), and the phase machine (R157). -/

namespace Sys2Proof.Machine

/-- OUTCNT and POS fit the variant's output policy (R38 (d)). -/
def State.countFits (s : State) : Bool :=
  match dlen s.variant with
  | none => decide (s.outcnt = 0)
  | some n => decide (s.outcnt.toNat ≤ n) && decide (s.pos.toNat = s.outcnt.toNat)

/-- What R38 says of every reachable state. (a), VARIANT ≤ 5, holds by the type of VARIANT. -/
abbrev State.Inv (s : State) : Prop :=
  (s.phase = .idle → s.variant = .sha3_224 ∧ s.pos = 0 ∧ s.outcnt = 0 ∧ s.err = 0) ∧
  (s.phase = .absorb → s.pos.toNat < rate s.variant ∧ s.outcnt = 0 ∧ s.err = 0) ∧
  (s.phase = .squeeze → s.pos.toNat ≤ rate s.variant ∧ s.err = 0 ∧ s.countFits = true) ∧
  (s.phase = .error ↔ s.err ≠ 0) ∧
  s.err.toNat ≤ 4 ∧ s.pos.toNat ≤ 168 ∧ s.outcnt.toNat ≤ 64

/-- The two states have the same architectural part, the tuple (A, VARIANT, PHASE, POS, OUTCNT, ERR). -/
abbrev State.sameEngine (s t : State) : Prop :=
  t.lanes = s.lanes ∧ t.variant = s.variant ∧ t.phase = s.phase ∧ t.pos = s.pos ∧
  t.outcnt = s.outcnt ∧ t.err = s.err

/-- The state before a command with only what R222 names changed by a fault of the given code: PHASE, ERR
(kept when the engine was in ERROR already, R224) and the response. -/
abbrev State.afterFault (s : State) (code : BitVec 4) : State :=
  { s with
    err := if s.phase = .error then s.err else code
    phase := .error
    rsp := some ⟨0, code⟩ }

/-- The port gives the response `rdata = v`, `rerr = 0`. -/
abbrev State.succeeded (t : State) : Prop := ∃ v, t.rsp = some ⟨v, 0⟩

/-- The table of R219: the phases in which a command is legal. -/
def legalIn (i : Instr) (p : Phase) : Bool :=
  match i with
  | .status => true
  | .clear => true
  | .init _ => true
  | .rdlane _ => true
  | .absorb _ => decide (p = .absorb)
  | .final => decide (p = .absorb)
  | .squeeze => decide (p = .squeeze)
  | .permute => decide (p = .idle)
  | .wrlane _ _ => decide (p = .idle)

/-- INIT names a code that is not one of the six variants (R184). -/
def invalidVariant : Instr → Bool
  | .init v => decide (6 ≤ v.toNat)
  | .status => false
  | .clear => false
  | .absorb _ => false
  | .final => false
  | .squeeze => false
  | .permute => false
  | .rdlane _ => false
  | .wrlane _ _ => false

/-- The code a transaction reports, by the order of R221: ERR_ILLEGAL, then ERR_VARIANT or ERR_SEQ, then
ERR_LENGTH; 0 when no cause applies. -/
def reportedCode (cmd : BitVec 16) (wdata : Lane) (s : State) : BitVec 4 :=
  match decode cmd wdata with
  | .error _ => 4
  | .ok i =>
    if invalidVariant i then 1
    else if !legalIn i s.phase then 3
    else if i = .squeeze ∧ dlen s.variant = some s.outcnt.toNat then 2
    else 0

/-- The table of R157: the next phase of a legal command that does not fault. -/
def phaseAfter (i : Instr) (p : Phase) : Phase :=
  match i with
  | .status => p
  | .rdlane _ => p
  | .clear => .idle
  | .init _ => .absorb
  | .absorb _ => .absorb
  | .final => .squeeze
  | .squeeze => .squeeze
  | .permute => .idle
  | .wrlane _ _ => .idle

end Sys2Proof.Machine
end

