-- ==== Sys2Proof/Certificates/Slice0/Obligations.lean ====
section
/-! DEFINITION. The statements for the provers, from the numbered rules of the spec. -/

open Sys2Proof Sys2Proof.Machine

/-! ## The command word -/

/-- Decoding undoes encoding for every well-formed command, and every word that decodes is the encoding of
what it decodes to; the write datum is kept where the command has one (30_encoding.md, sections 2 and 3). That the
encoder drives zero for the commands without one is the model's choice, log entry 6. -/
def Obligations.DecodeInvertsEncode : Prop :=
  (∀ i : Instr, i.wellFormed = true → decode (encode i) (encodeData i) = .ok i) ∧
  (∀ cmd d i, decode cmd d = .ok i →
    i.wellFormed = true ∧ encode i = cmd ∧ (encodeData i = d ∨ encodeData i = 0))

/-- R80: a word is the command of a row exactly when it matches the row under its mask and the further
condition holds, and its operand is the field the pattern names; the patterns are disjoint; 319 words are
legal; INIT with v ≥ 6 decodes as INIT and faults with ERR_VARIANT. -/
def Obligations.WordsAreTheCommandsOfTheTable : Prop :=
  (∀ cmd d,
    (decode cmd d = .ok .status ↔ cmd &&& 0xFFFF = 0x0000) ∧
    (decode cmd d = .ok .clear ↔ cmd &&& 0xFFFF = 0x1000) ∧
    (∀ v, decode cmd d = .ok (.init v) ↔ cmd &&& 0xFFF8 = 0x2000 ∧ v = cmd.extractLsb' 0 3) ∧
    (∀ b, decode cmd d = .ok (.absorb b) ↔ cmd &&& 0xFF00 = 0x3000 ∧ b = cmd.extractLsb' 0 8) ∧
    (decode cmd d = .ok .final ↔ cmd &&& 0xFFFF = 0x4000) ∧
    (decode cmd d = .ok .squeeze ↔ cmd &&& 0xFFFF = 0x5000) ∧
    (decode cmd d = .ok .permute ↔ cmd &&& 0xFFFF = 0x6000) ∧
    (∀ i, decode cmd d = .ok (.rdlane i) ↔
      cmd &&& 0xFFE0 = 0x7000 ∧ i = cmd.extractLsb' 0 5 ∧ i.toNat ≤ 24) ∧
    (∀ i e, decode cmd d = .ok (.wrlane i e) ↔
      cmd &&& 0xFFE0 = 0x8000 ∧ i = cmd.extractLsb' 0 5 ∧ i.toNat ≤ 24 ∧ e = d)) ∧
  ([((0x0000 : BitVec 16), (0xFFFF : BitVec 16)), (0x1000, 0xFFFF), (0x2000, 0xFFF8),
    (0x3000, 0xFF00), (0x4000, 0xFFFF), (0x5000, 0xFFFF), (0x6000, 0xFFFF), (0x7000, 0xFFE0),
    (0x8000, 0xFFE0)].Pairwise fun p q =>
      ∀ cmd : BitVec 16, ¬(cmd &&& p.2 = p.1 ∧ cmd &&& q.2 = q.1)) ∧
  Nat.card {cmd : BitVec 16 // ∃ i, decode cmd 0 = .ok i} = 319 ∧
  (∀ v : BitVec 3, 6 ≤ v.toNat → ∀ d s,
    decode (0x2000 ||| v.setWidth 16) d = .ok (.init v) ∧
    transact (0x2000 ||| v.setWidth 16) d s = .next (s.afterFault 1))

/-- No command but WRLANE sees `wdata`: neither its decoding nor anything it does depends on it
(30_encoding.md section 2, the clause on `wdata` of the operand assembly). -/
def Obligations.WriteDatumIsIgnoredByAllButWrlane : Prop :=
  ∀ cmd d e s, cmd.extractLsb' 12 4 ≠ 0x8#4 →
    decode cmd d = decode cmd e ∧ transact cmd d s = transact cmd e s

/-- R81: a word is illegal exactly under one of (a) to (e), here on the numbers OPC, RSV and ARG, and equivalently
when it matches no row of the opcode map; it raises ERR_ILLEGAL in every state; INIT 6 and INIT 7 are not illegal
and raise ERR_VARIANT. -/
def Obligations.IllegalWordsRaiseErrIllegal : Prop :=
  (∀ cmd d,
    let opc := cmd.toNat / 4096
    let rsv := cmd.toNat / 256 % 16
    let arg := cmd.toNat % 256
    ((∃ e, decode cmd d = .error e) ↔
      rsv ≠ 0 ∨ 9 ≤ opc ∨ (opc ∈ [0, 1, 4, 5, 6] ∧ arg ≠ 0) ∨ (opc = 2 ∧ arg / 8 ≠ 0) ∨
      (opc ∈ [7, 8] ∧ (arg / 32 ≠ 0 ∨ 25 ≤ arg % 32))) ∧
    ((∃ e, decode cmd d = .error e) ↔ ∀ r ∈ opcodeRows, r.accepts cmd = false)) ∧
  (∀ cmd d s e, decode cmd d = .error e → transact cmd d s = .next (s.afterFault 4)) ∧
  (∀ d s, decode 0x2006 d = .ok (.init 6) ∧ transact 0x2006 d s = .next (s.afterFault 1) ∧
    decode 0x2007 d = .ok (.init 7) ∧ transact 0x2007 d s = .next (s.afterFault 1))

/-- Words written out from the patterns of R80 (the examples of 95_test_vectors.md D-1 and D-2) decode to the
commands they spell. -/
def Obligations.ExampleWordsDecode : Prop :=
  decode 0b0000000000000000 0 = .ok .status ∧
  decode 0b0001000000000000 0 = .ok .clear ∧
  decode 0b0010000000000101 0 = .ok (.init 5) ∧
  decode 0b0011000001100001 0 = .ok (.absorb 0x61) ∧
  decode 0b0100000000000000 0 = .ok .final ∧
  decode 0b0101000000000000 0 = .ok .squeeze ∧
  decode 0b0110000000000000 0 = .ok .permute ∧
  decode 0b0111000000011000 0 = .ok (.rdlane 24) ∧
  decode 0b1000000000010000 7 = .ok (.wrlane 16 7) ∧
  decode 0b0111000000011001 0 = .error .laneIndexHigh

/-! ## The step -/

/-- A step serves the oldest pending event of the host: a legal word runs as its command, an illegal word is
the fault entry, reset gives the reset state, and with nothing pending the engine holds its state. The list of
pending events and the response field are the model's own form of the port, log entry 1. -/
def Obligations.StepRunsTheDecodedCommand : Prop :=
  (∀ (s : State) cmd d es i, s.pending = .command cmd d :: es → decode cmd d = .ok i →
    step s = exec i { s with pending := es }) ∧
  (∀ (s : State) cmd d es e, s.pending = .command cmd d :: es → decode cmd d = .error e →
    step s = .next ({ s with pending := es }.afterFault 4)) ∧
  (∀ (s : State) es, s.pending = .reset :: es → step s = .next { State.reset with pending := es }) ∧
  (∀ (s : State) es, s.pending = .wait :: es → step s = .next { s with pending := es, rsp := none }) ∧
  (∀ s : State, s.pending = [] → step s = .next { s with rsp := none })

/-- Serving a list of events one after the other is running `step` that many times with the list pending:
the state after is the same (20_memory.md, section 7). The pending list is log entry 1. -/
def Obligations.ServingIsRunningTheStep : Prop :=
  ∀ (es : List HostEvent) (s t : State) (rs : List (Option Response)),
    serve es { s with pending := [] } = some (t, rs) →
    Host.Core.run Sys2Proof.core es.length ({ s with pending := es } : State) = .next t

/-- R63: the response to every command and the state after it are determined by the engine's state and the
command; nothing else (what the port gave before, what the host will do next) enters. -/
def Obligations.ResponsesDependOnTheEngineAlone : Prop :=
  ∀ es s s' t rs, s.sameEngine s' → serve es s = some (t, rs) →
    ∃ t', serve es s' = some (t', rs) ∧ t.sameEngine t'

/-- Where the model stops: only where a command asks for a byte at a position of 200 or more, which the spec
does not have (20_memory.md section 1), and never by a refusal. That it stops there is log entry 4. -/
def Obligations.StopsOnlyWhereNoByteIs : Prop :=
  ∀ i s,
    (∀ r, exec i s ≠ .refused r) ∧
    (∀ r, exec i s = .fault r → r = .noSuchByte ∧ 200 ≤ s.pos.toNat ∧
      ((∃ b, i = .absorb b) ∨ i = .final ∨ i = .squeeze)) ∧
    (s.phase = .absorb → 200 ≤ s.pos.toNat → ∀ b,
      exec (.absorb b) s = .fault .noSuchByte ∧ exec .final s = .fault .noSuchByte) ∧
    (s.phase = .squeeze → 200 ≤ s.pos.toNat → dlen s.variant ≠ some s.outcnt.toNat →
      exec .squeeze s = .fault .noSuchByte)

/-! ## The commands -/

/-- R197 with the status word of R29: STATUS responds the control registers at their bit positions, DONE
computed from them, the reserved bits 0, and changes nothing, in every phase; with RSV or ARG not zero the word
is illegal. -/
def Obligations.StatusShowsTheControlRegisters : Prop :=
  (∀ d, decode 0x0000 d = .ok .status) ∧
  (∀ cmd d s, cmd.extractLsb' 12 4 = 0x0#4 → cmd ≠ 0x0000 →
    transact cmd d s = .next (s.afterFault 4)) ∧
  (∀ s : State, ∃ w : BitVec 64, exec .status s = .next { s with rsp := some ⟨w, 0⟩ } ∧
    w.extractLsb' 0 2 =
      (match s.phase with | .idle => 0#2 | .absorb => 1#2 | .squeeze => 2#2 | .error => 3#2) ∧
    (w.getLsbD 2 = true ↔ s.phase = .squeeze ∧
      ((s.variant = .sha3_224 ∧ s.outcnt = 28) ∨ (s.variant = .sha3_256 ∧ s.outcnt = 32) ∨
       (s.variant = .sha3_384 ∧ s.outcnt = 48) ∨ (s.variant = .sha3_512 ∧ s.outcnt = 64))) ∧
    w.getLsbD 3 = false ∧
    w.extractLsb' 4 3 = variantCode s.variant ∧
    w.getLsbD 7 = false ∧
    w.extractLsb' 8 8 = s.pos ∧
    w.extractLsb' 16 4 = s.err ∧
    w.extractLsb' 20 7 = s.outcnt ∧
    w.extractLsb' 27 37 = 0) ∧
  exec .status State.reset = .next { State.reset with rsp := some ⟨0, 0⟩ }

/-- R198: CLEAR gives every piece of state its reset value, in every phase; with RSV or ARG not zero the word is
illegal. -/
def Obligations.ClearGivesTheResetState : Prop :=
  (∀ d, decode 0x1000 d = .ok .clear) ∧
  (∀ cmd d s, cmd.extractLsb' 12 4 = 0x1#4 → cmd ≠ 0x1000 →
    transact cmd d s = .next (s.afterFault 4)) ∧
  ∀ s : State, ∃ A : Lanes, (∀ x y, laneAt A x y = 0) ∧
    exec .clear s = .next
      { lanes := A, variant := .sha3_224, phase := .idle, pos := 0, outcnt := 0, err := 0,
        rsp := some ⟨0, 0⟩, pending := s.pending }

/-- R183 and R184: INIT v with a variant's code zeroes the lanes and starts a computation, in every phase;
with the codes 6 and 7 it raises ERR_VARIANT and selects no variant; with RSV or ARG[7:3] not zero the word is
illegal. The variants' codes are those of R181, and RATE, CAP, DOMAIN and DLEN of each are those of the tables of
44_variant.md. -/
def Obligations.InitStartsAComputation : Prop :=
  (∀ w : Variant, (variantCode w, rate w, cap w, domain w, dlen w) ∈
    [(0#3, 144, 56, Domain.ordinary, some 28), (1#3, 136, 64, Domain.ordinary, some 32),
     (2#3, 104, 96, Domain.ordinary, some 48), (3#3, 72, 128, Domain.ordinary, some 64),
     (4#3, 168, 32, Domain.extendable, none), (5#3, 136, 64, Domain.extendable, none)]) ∧
  (∀ cmd d s, cmd.extractLsb' 12 4 = 0x2#4 →
    (cmd.extractLsb' 8 4 ≠ 0x0#4 ∨ cmd.extractLsb' 3 5 ≠ 0x0#5) →
    transact cmd d s = .next (s.afterFault 4)) ∧
  ∀ (v : BitVec 3) (s : State),
    (∀ d, decode (0x2000 ||| v.setWidth 16) d = .ok (.init v)) ∧
    (v.toNat < 6 → ∃ (A : Lanes) (w : Variant), (∀ x y, laneAt A x y = 0) ∧ variantCode w = v ∧
      exec (.init v) s = .next
        { lanes := A, variant := w, phase := .absorb, pos := 0, outcnt := 0, err := 0,
          rsp := some ⟨0, 0⟩, pending := s.pending }) ∧
    (6 ≤ v.toNat → exec (.init v) s = .next (s.afterFault 1))

/-- R132: ABSORB XORs its byte into S[POS], advances POS, and permutes when the block is full; outside phase
ABSORB it raises ERR_SEQ; with RSV not zero the word is illegal. That POS is below 200 is no condition of the
spec (it holds in every state of R38); the model stops on other states, log entry 4. -/
def Obligations.AbsorbXorsTheByteAtPos : Prop :=
  (∀ cmd d s, cmd.extractLsb' 12 4 = 0x3#4 → cmd.extractLsb' 8 4 ≠ 0x0#4 →
    transact cmd d s = .next (s.afterFault 4)) ∧
  ∀ (b : Byte) (s : State),
    (∀ d, decode (0x3000 ||| b.setWidth 16) d = .ok (.absorb b)) ∧
    (s.phase ≠ .absorb → exec (.absorb b) s = .next (s.afterFault 3)) ∧
    (s.phase = .absorb → s.pos.toNat < 200 → ∃ A : Lanes,
      (∀ p : Fin 200, memRead A p =
        if p.val = s.pos.toNat then memRead s.lanes p ^^^ b else memRead s.lanes p) ∧
      (s.pos.toNat + 1 ≠ rate s.variant →
        exec (.absorb b) s = .next { s with lanes := A, pos := s.pos + 1, rsp := some ⟨0, 0⟩ }) ∧
      (s.pos.toNat + 1 = rate s.variant →
        exec (.absorb b) s =
          .next { s with lanes := keccakP A, pos := 0, rsp := some ⟨0, 0⟩ }))

/-- R133: SQUEEZE responds the byte S[POS] and advances POS, permuting first when the block is used up; it
counts for a fixed variant and refuses a byte past DLEN; outside phase SQUEEZE it raises ERR_SEQ; with RSV or
ARG not zero the word is illegal. The condition POS < 200 is log entry 4. -/
def Obligations.SqueezeReturnsTheByteAtPos : Prop :=
  (∀ d, decode 0x5000 d = .ok .squeeze) ∧
  (∀ cmd d s, cmd.extractLsb' 12 4 = 0x5#4 → cmd ≠ 0x5000 →
    transact cmd d s = .next (s.afterFault 4)) ∧
  ∀ s : State,
    (s.phase ≠ .squeeze → exec .squeeze s = .next (s.afterFault 3)) ∧
    (s.phase = .squeeze → dlen s.variant = some s.outcnt.toNat →
      exec .squeeze s = .next (s.afterFault 2)) ∧
    (s.phase = .squeeze → dlen s.variant ≠ some s.outcnt.toNat →
      ∃ n : BitVec 7,
        n = (if (variantCode s.variant).toNat ≤ 3 then s.outcnt + 1 else s.outcnt) ∧
        (∀ p : Fin 200, p.val = s.pos.toNat → s.pos.toNat ≠ rate s.variant →
          exec .squeeze s = .next { s with
            pos := s.pos + 1, outcnt := n, rsp := some ⟨(memRead s.lanes p).setWidth 64, 0⟩ }) ∧
        (s.pos.toNat = rate s.variant →
          exec .squeeze s = .next { s with
            lanes := keccakP s.lanes, pos := 1, outcnt := n,
            rsp := some ⟨(memRead (keccakP s.lanes) 0).setWidth 64, 0⟩ }))

/-- R158: FINAL XORs the padding bytes in, permutes, and switches to squeezing; outside phase ABSORB it raises
ERR_SEQ; with RSV or ARG not zero the word is illegal. The condition POS < 200 is log entry 4. -/
def Obligations.FinalPadsPermutesAndSwitches : Prop :=
  (∀ d, decode 0x4000 d = .ok .final) ∧
  (∀ cmd d s, cmd.extractLsb' 12 4 = 0x4#4 → cmd ≠ 0x4000 →
    transact cmd d s = .next (s.afterFault 4)) ∧
  ∀ s : State,
    (s.phase ≠ .absorb → exec .final s = .next (s.afterFault 3)) ∧
    (s.phase = .absorb → s.pos.toNat < 200 → ∃ A : Lanes,
      (∀ p : Fin 200, memRead A p = memRead s.lanes p ^^^
        (if rate s.variant = s.pos.toNat + 1 then
          (if p.val = s.pos.toNat then
            (match domain s.variant with | .ordinary => 0x86#8 | .extendable => 0x9F#8)
           else 0)
         else
          (if p.val = s.pos.toNat then
            (match domain s.variant with | .ordinary => 0x06#8 | .extendable => 0x1F#8)
           else 0) ^^^
          (if p.val = rate s.variant - 1 then 0x80#8 else 0))) ∧
      exec .final s = .next { s with
        lanes := keccakP A, phase := .squeeze, pos := 0, outcnt := 0, rsp := some ⟨0, 0⟩ })

/-- R111: PERMUTE applies KeccakP to the lane array in phase IDLE and changes nothing else; in any other phase
it raises ERR_SEQ; repeated n times it applies KeccakP n times; with RSV or ARG not zero the word is illegal. -/
def Obligations.PermuteAppliesKeccakP : Prop :=
  (∀ d, decode 0x6000 d = .ok .permute) ∧
  (∀ cmd d s, cmd.extractLsb' 12 4 = 0x6#4 → cmd ≠ 0x6000 →
    transact cmd d s = .next (s.afterFault 4)) ∧
  (∀ s : State,
    (s.phase = .idle →
      exec .permute s = .next { s with lanes := keccakP s.lanes, rsp := some ⟨0, 0⟩ }) ∧
    (s.phase ≠ .idle → exec .permute s = .next (s.afterFault 3))) ∧
  (∀ (n : Nat) (s : State), s.phase = .idle → ∃ t rs,
    serve (List.replicate n (send .permute)) s = some (t, rs) ∧
    State.sameEngine { s with lanes := keccakP^[n] s.lanes } t)

/-- R195: RDLANE i responds the lane at column i mod 5, row i div 5, in every phase, and changes nothing; an
index of 25 or more is an illegal encoding. -/
def Obligations.RdlaneReturnsTheLane : Prop :=
  (∀ cmd d s, cmd.extractLsb' 12 4 = 0x7#4 →
    (cmd.extractLsb' 8 4 ≠ 0x0#4 ∨ cmd.extractLsb' 5 3 ≠ 0x0#3 ∨
      25 ≤ (cmd.extractLsb' 0 5).toNat) →
    transact cmd d s = .next (s.afterFault 4)) ∧
  ∀ (i : BitVec 5) (s : State),
    (i.toNat ≤ 24 → ∀ d, decode (0x7000 ||| i.setWidth 16) d = .ok (.rdlane i)) ∧
    (∀ x y : Fin 5, i.toNat = x.val + 5 * y.val →
      exec (.rdlane i) s = .next { s with rsp := some ⟨laneAt s.lanes x y, 0⟩ }) ∧
    (25 ≤ i.toNat → exec (.rdlane i) s = .next (s.afterFault 4))

/-- R196: WRLANE i, d writes lane i whole in phase IDLE and leaves the other 24 lanes and everything else
unchanged; in any other phase it raises ERR_SEQ; an index of 25 or more is an illegal encoding, whatever the
phase. -/
def Obligations.WrlaneWritesTheLane : Prop :=
  (∀ cmd d s, cmd.extractLsb' 12 4 = 0x8#4 →
    (cmd.extractLsb' 8 4 ≠ 0x0#4 ∨ cmd.extractLsb' 5 3 ≠ 0x0#3 ∨
      25 ≤ (cmd.extractLsb' 0 5).toNat) →
    transact cmd d s = .next (s.afterFault 4)) ∧
  ∀ (i : BitVec 5) (d : Lane) (s : State),
    (i.toNat ≤ 24 → decode (0x8000 ||| i.setWidth 16) d = .ok (.wrlane i d)) ∧
    (i.toNat ≤ 24 → s.phase = .idle → ∃ A : Lanes,
      (∀ x y : Fin 5, laneAt A x y =
        if i.toNat = x.val + 5 * y.val then d else laneAt s.lanes x y) ∧
      exec (.wrlane i d) s = .next { s with lanes := A, rsp := some ⟨0, 0⟩ }) ∧
    (i.toNat ≤ 24 → s.phase ≠ .idle → exec (.wrlane i d) s = .next (s.afterFault 3)) ∧
    (25 ≤ i.toNat → exec (.wrlane i d) s = .next (s.afterFault 4))

/-! ## What the commands leave unchanged -/

/-- The frame of every command that succeeds: which registers it may change, and which bytes of the lane array.
ABSORB and SQUEEZE change bytes only through the permutation, but for the one byte at POS that ABSORB stores
to; WRLANE i stores to the bytes 8i to 8i + 7; FINAL and PERMUTE permute the whole array (10_state.md section 1,
40_permutation.md section 4, and the state-written lines of the other command rules). The list of pending events,
which no command touches, is the model's own, log entry 1. -/
def Obligations.CommandsChangeOnlyWhatTheyWrite : Prop :=
  ∀ i s t, exec i s = .next t → t.succeeded →
    t.pending = s.pending ∧
    (match i with
     | .status => s.sameEngine t
     | .rdlane _ => s.sameEngine t
     | .clear => True
     | .init _ => True
     | .absorb _ =>
       t.variant = s.variant ∧ t.phase = s.phase ∧ t.outcnt = s.outcnt ∧ t.err = s.err ∧
       (s.pos.toNat + 1 ≠ rate s.variant →
         ∀ a : Fin 200, a.val ≠ s.pos.toNat → memRead t.lanes a = memRead s.lanes a)
     | .final => t.variant = s.variant ∧ t.err = s.err
     | .squeeze =>
       t.variant = s.variant ∧ t.phase = s.phase ∧ t.err = s.err ∧
       (dlen s.variant = none → t.outcnt = s.outcnt) ∧
       (s.pos.toNat ≠ rate s.variant → ∀ a : Fin 200, memRead t.lanes a = memRead s.lanes a)
     | .permute =>
       t.variant = s.variant ∧ t.phase = s.phase ∧ t.pos = s.pos ∧ t.outcnt = s.outcnt ∧
       t.err = s.err
     | .wrlane k _ =>
       t.variant = s.variant ∧ t.phase = s.phase ∧ t.pos = s.pos ∧ t.outcnt = s.outcnt ∧
       t.err = s.err ∧
       (∀ a : Fin 200, a.val / 8 ≠ k.toNat → memRead t.lanes a = memRead s.lanes a))

/-- Who writes the control registers (10_state.md section 2): a register that a transaction changed was changed by a
command its entry there names, to the value named there; PHASE and ERR also by a fault, ERR only by one raised outside
phase ERROR. -/
def Obligations.RegistersChangeOnlyByTheirWriters : Prop :=
  ∀ (cmd : BitVec 16) (d : Lane) (s t : State), transact cmd d s = .next t →
    (t.variant ≠ s.variant → t.succeeded ∧
      ((decode cmd d = .ok .clear ∧ variantCode t.variant = 0) ∨
        decode cmd d = .ok (.init (variantCode t.variant)))) ∧
    (t.phase ≠ s.phase →
      (t.succeeded ∧
        ((t.phase = .absorb ∧ ∃ v, decode cmd d = .ok (.init v)) ∨
          (t.phase = .squeeze ∧ decode cmd d = .ok .final) ∨
          (t.phase = .idle ∧ decode cmd d = .ok .clear))) ∨
      (t.phase = .error ∧ ∃ c, c ≠ 0 ∧ t.rsp = some ⟨0, c⟩)) ∧
    (t.pos ≠ s.pos → t.succeeded ∧
      (((∃ b, decode cmd d = .ok (.absorb b)) ∧ (t.pos = s.pos + 1 ∨ t.pos = 0)) ∨
        (decode cmd d = .ok .squeeze ∧
          (t.pos = s.pos + 1 ∨ (s.pos.toNat = rate s.variant ∧ t.pos = 1))) ∨
        (t.pos = 0 ∧ (decode cmd d = .ok .final ∨ decode cmd d = .ok .clear ∨
          ∃ v, decode cmd d = .ok (.init v))))) ∧
    (t.outcnt ≠ s.outcnt → t.succeeded ∧
      ((decode cmd d = .ok .squeeze ∧ (variantCode s.variant).toNat ≤ 3 ∧ t.outcnt = s.outcnt + 1) ∨
        (t.outcnt = 0 ∧ (decode cmd d = .ok .final ∨ decode cmd d = .ok .clear ∨
          ∃ v, decode cmd d = .ok (.init v))))) ∧
    (t.err ≠ s.err →
      (s.phase ≠ .error ∧ t.phase = .error ∧ t.rsp = some ⟨0, t.err⟩) ∨
      (t.succeeded ∧ t.err = 0 ∧
        (decode cmd d = .ok .clear ∨ ∃ v, decode cmd d = .ok (.init v))))

/-! ## Faults -/

/-- R222: whenever a transaction faults, the response is rdata = 0 and the code, a code of 1 to 4; PHASE becomes
ERROR, ERR takes the code unless the engine was in ERROR, and nothing else changes. -/
def Obligations.FaultsChangeOnlyPhaseAndErr : Prop :=
  ∀ cmd d s t r, transact cmd d s = .next t → t.rsp = some r → r.rerr ≠ 0 →
    1 ≤ r.rerr.toNat ∧ r.rerr.toNat ≤ 4 ∧ r.rdata = 0 ∧ t.phase = .error ∧
    t.err = (if s.phase = .error then s.err else r.rerr) ∧
    t.lanes = s.lanes ∧ t.variant = s.variant ∧ t.pos = s.pos ∧ t.outcnt = s.outcnt ∧
    t.pending = s.pending

/-- R221, R219 and R84: the code a transaction reports is the first that applies in the order ERR_ILLEGAL;
ERR_VARIANT for INIT; ERR_SEQ for a command outside its legal phases; ERR_LENGTH for SQUEEZE. When one applies, the
transaction is the fault entry and nothing else; when none applies, the command is performed and reports no fault. -/
def Obligations.ReportedFaultIsTheFirstThatApplies : Prop :=
  ∀ cmd d s t, transact cmd d s = .next t →
    (∃ r, t.rsp = some r ∧ r.rerr = reportedCode cmd d s) ∧
    (reportedCode cmd d s ≠ 0 → t = s.afterFault (reportedCode cmd d s)) ∧
    (reportedCode cmd d s = 0 → ∃ i, decode cmd d = .ok i ∧ exec i s = .next t ∧ t.succeeded) ∧
    (∀ i, decode cmd d = .ok i → invalidVariant i = true → legalIn i s.phase = true)

/-- R224: a command that faults in phase ERROR reports its own code and leaves ERR and PHASE as they are; in the
example, ABSORB 0 after reset and then the word 0xFFFF report 3 and 4, and ERR stays 3. -/
def Obligations.FirstFaultIsKept : Prop :=
  (∀ cmd d s t r, s.phase = .error → transact cmd d s = .next t → t.rsp = some r → r.rerr ≠ 0 →
    r.rerr = reportedCode cmd d s ∧ t.err = s.err ∧ t.phase = .error) ∧
  (∀ d e, ∃ t u, transact 0x3000 d State.reset = .next t ∧ t.rsp = some ⟨0, 3⟩ ∧ t.err = 3 ∧
    transact 0xFFFF e t = .next u ∧ u.rsp = some ⟨0, 4⟩ ∧ u.err = 3 ∧ u.phase = .error)

/-- R83: the response of every command: rerr is at most 4; a fault has rdata = 0; without a fault STATUS gives the
status word of the state before it, SQUEEZE the output byte (the byte at POS, or the first byte of the permuted
lanes when POS = RATE), RDLANE i the lane, and the others 0. -/
def Obligations.ResponsesOfTheCommands : Prop :=
  ∀ i s t, exec i s = .next t → ∃ r, t.rsp = some r ∧ r.rerr.toNat ≤ 4 ∧
    (r.rerr ≠ 0 → r.rdata = 0) ∧
    (r.rerr = 0 →
      match i with
      | .status => r.rdata = statusWord s
      | .squeeze =>
        if s.pos.toNat = rate s.variant then r.rdata = (memRead (keccakP s.lanes) 0).setWidth 64
        else ∃ p : Fin 200, p.val = s.pos.toNat ∧ r.rdata = (memRead s.lanes p).setWidth 64
      | .rdlane k => ∃ x y : Fin 5, k.toNat = x.val + 5 * y.val ∧ r.rdata = laneAt s.lanes x y
      | .clear => r.rdata = 0
      | .init _ => r.rdata = 0
      | .absorb _ => r.rdata = 0
      | .final => r.rdata = 0
      | .permute => r.rdata = 0
      | .wrlane _ _ => r.rdata = 0)

/-- R157: the phase machine. A legal word that does not fault takes PHASE where the table says; where the table has
a fault, that fault is reported and PHASE becomes ERROR, as for every illegal word; reset takes it to IDLE; SQUEEZE is entered only through FINAL, and there is no way back from SQUEEZE to
ABSORB but by INIT. -/
def Obligations.PhaseMachine : Prop :=
  (∀ cmd d s t i, decode cmd d = .ok i → transact cmd d s = .next t →
    t.phase = (if reportedCode cmd d s = 0 then phaseAfter i s.phase else .error) ∧
    t.rsp.map (fun r => r.rerr) = some (reportedCode cmd d s)) ∧
  (∀ cmd d s t e, decode cmd d = .error e → transact cmd d s = .next t →
    t.phase = .error ∧ t.rsp = some ⟨0, 4⟩) ∧
  (∀ s t, handleEvent .reset s = .next t → t.phase = .idle) ∧
  (∀ cmd d s t, transact cmd d s = .next t → s.phase ≠ .squeeze → t.phase = .squeeze →
    decode cmd d = .ok .final ∧ s.phase = .absorb) ∧
  (∀ cmd d s t, transact cmd d s = .next t → s.phase = .squeeze → t.phase = .absorb →
    ∃ v, decode cmd d = .ok (.init v))

/-- R225: PHASE leaves ERROR exactly by a successful INIT, to ABSORB, and by CLEAR and reset, to IDLE; each zeroes the
lanes and ERR. Anything else, an INIT that faults among it, leaves PHASE at ERROR and ERR unchanged. -/
def Obligations.ErrorPhaseIsLeftInThreeWays : Prop :=
  ∀ e s t, s.phase = .error → handleEvent e s = .next t →
    (t.phase ≠ .error ↔
      (∃ (v : BitVec 3) (d : Lane), e = .command (0x2000 ||| v.setWidth 16) d ∧ v.toNat < 6) ∨
      (∃ d, e = .command 0x1000 d) ∨ e = .reset) ∧
    (∀ (v : BitVec 3) (d : Lane), e = .command (0x2000 ||| v.setWidth 16) d → v.toNat < 6 →
      t.phase = .absorb) ∧
    (∀ d, e = .command 0x1000 d → t.phase = .idle) ∧
    (e = .reset → t.phase = .idle) ∧
    (t.phase ≠ .error → (∀ x y, laneAt t.lanes x y = 0) ∧ t.err = 0) ∧
    (t.phase = .error → t.err = s.err)

/-- R223: the computation is dead after a fault. From phase ERROR, whatever the host does short of a successful INIT,
CLEAR or reset, the engine's state stays as it is, and the sponge commands and the raw commands (those that are not
legal in ERROR) are all refused with ERR_SEQ, so no output byte is ever returned. -/
def Obligations.NoOutputAfterAFault : Prop :=
  ∀ es s, s.phase = .error →
    (∀ e ∈ es, e ≠ .reset ∧ (∀ d, e ≠ .command 0x1000 d) ∧
      (∀ (v : BitVec 3) d, v.toNat < 6 → e ≠ .command (0x2000 ||| v.setWidth 16) d)) →
    ∃ t rs, serve es s = some (t, rs) ∧ s.sameEngine t ∧
      ∀ cmd d i, decode cmd d = .ok i →
        i = .final ∨ i = .squeeze ∨ i = .permute ∨ (∃ b, i = .absorb b) ∨ (∃ k e, i = .wrlane k e) →
        ∀ r ∈ responsesTo (fun e => e == .command cmd d) es rs, r = ⟨0, 3⟩

/-! ## Reset and the invariant -/

/-- R250 with the values of R40: reset gives the reset state from any state and no response; every lane and every
control register is 0 there, and so is the status word. -/
def Obligations.ResetGivesTheResetValues : Prop :=
  (∀ s : State, handleEvent .reset s = .next { State.reset with pending := s.pending }) ∧
  (∀ x y, laneAt State.reset.lanes x y = 0) ∧ variantCode State.reset.variant = 0 ∧
  phaseCode State.reset.phase = 0 ∧ State.reset.pos = 0 ∧ State.reset.outcnt = 0 ∧
  State.reset.err = 0 ∧ State.reset.done = false ∧ statusWord State.reset = 0 ∧
  State.reset.rsp = none

/-- No sequence of events can tell an engine that was just reset from one that just executed CLEAR: the responses are
the same (an inference the spec marks as its own, 70_reset_and_hazards.md section 1: "no command can tell an engine
that was just reset from one that just executed CLEAR"). -/
def Obligations.ClearCannotBeToldFromReset : Prop :=
  ∀ es d s s' t t' u rs, transact 0x1000 d s = .next t → handleEvent .reset s' = .next t' →
    serve es t = some (u, rs) → ∃ u', serve es t' = some (u', rs) ∧ u.sameEngine u'

/-- The reset state meets the invariant (10_state.md section 6; VARIANT is at most 5 by its type, log entry 2). -/
def Obligations.ResetMeetsTheInvariant : Prop := State.reset.Inv

/-- Every step keeps the invariant of 10_state.md section 6 (which the spec derives "by induction over commands"),
from every state that meets it, whatever the host does. -/
def Obligations.StepKeepsTheInvariant : Prop :=
  ∀ s t : State, s.Inv → step s = .next t → t.Inv

/-- From every state that meets the invariant, every command word with every write datum is answered, and the state
after it meets the invariant again; hence, from the reset state, after any events whatever, the model has not stopped
and every command gets one response (30_encoding.md section 1: the port's step is total on all inputs and all
reachable states). -/
def Obligations.EveryCommandIsAnswered : Prop :=
  (∀ s : State, s.Inv → ∀ cmd d, ∃ t r, transact cmd d s = .next t ∧ t.rsp = some r ∧ t.Inv) ∧
  (∀ es, ∃ s rs, serve es State.reset = some (s, rs) ∧
    ∀ cmd d, ∃ t r, transact cmd d s = .next t ∧ t.rsp = some r)

/-! ## The byte view -/

/-- R51: the byte view of the lane array. S[p] is byte p mod 8 of the lane at column (p div 8) mod 5, row p div 40; a
lane is its eight bytes, the lowest position least significant; writing a byte and XORing a byte change the lane as
written. -/
def Obligations.ByteViewOfTheLanes : Prop :=
  (∀ (A : Lanes) (p : Fin 200) (x y : Fin 5), x.val = p.val / 8 % 5 → y.val = p.val / 40 →
    memRead A p = (laneAt A x y).extractLsb' (8 * (p.val % 8)) 8) ∧
  (∀ (A : Lanes) (i : Fin 25) (S : Fin 8 → Byte),
    (∀ (k : Fin 8) (p : Fin 200), p.val = 8 * i.val + k.val → S k = memRead A p) →
    lane A i = S 7 ++ S 6 ++ S 5 ++ S 4 ++ S 3 ++ S 2 ++ S 1 ++ S 0) ∧
  (∀ (A : Lanes) (p : Fin 200) (v : Byte) (j : Fin 25),
    lane (memWrite A p v) j =
      if j.val = p.val / 8 then
        (lane A j &&& ~~~((0xFF : Lane) <<< (8 * (p.val % 8)))) |||
          (v.setWidth 64 <<< (8 * (p.val % 8)))
      else lane A j) ∧
  (∀ (A : Lanes) (p : Fin 200) (v : Byte) (j : Fin 25),
    lane (memXor A p.val v) j =
      if j.val = p.val / 8 then lane A j ^^^ (v.setWidth 64 <<< (8 * (p.val % 8)))
      else lane A j)

/-- The memory primitives (00_scope.md section 5): MemWrite replaces one byte and leaves the other 199 unchanged, and MemXor is MemWrite of the byte XORed with
the byte that was there; writing a lane is writing its eight bytes, and touches no other byte. -/
def Obligations.MemoryPrimitives : Prop :=
  (∀ (A : Lanes) (p q : Fin 200) (v : Byte),
    memRead (memWrite A p v) q = if q = p then v else memRead A q) ∧
  (∀ (A : Lanes) (p : Fin 200) (v : Byte),
    memXor A p.val v = memWrite A p (memRead A p ^^^ v)) ∧
  (∀ (A : Lanes) (i : Fin 25) (v : Lane) (q : Fin 200),
    memRead (setLane A i v) q =
      if q.val / 8 = i.val then v.extractLsb' (8 * (q.val % 8)) 8 else memRead A q)

/-- Lane arrays with the same 200 bytes are equal, so a statement about every byte fixes the array (20_memory.md
section 1). -/
def Obligations.BytesDetermineTheLanes : Prop :=
  ∀ A B : Lanes, (∀ p, memRead A p = memRead B p) → A = B

/-! ## The permutation -/

/-- R10: ROTL64 is the shift formula for 0 < n ≤ 63 and the identity for n = 0, and bit i of the input becomes bit
(i + n) mod 64 of the result. -/
def Obligations.RotationMovesBits : Prop :=
  ∀ (v : Lane) (n : Nat), n ≤ 63 →
    (n = 0 → rotl64 v n = v) ∧
    (0 < n → (rotl64 v n).toNat = (v.toNat * 2 ^ n % 2 ^ 64) ||| (v.toNat / 2 ^ (64 - n))) ∧
    (∀ i < 64, (rotl64 v n).getLsbD ((i + n) % 64) = v.getLsbD i)

/-- R102: Theta XORs D[x] into every lane of column x; the all-zero and the all-ones states are fixed. -/
def Obligations.ThetaXorsTheColumnParities : Prop :=
  (∀ (A : Lanes) (C D : Fin 5 → Lane),
    (∀ x, C x = laneAt A x 0 ^^^ laneAt A x 1 ^^^ laneAt A x 2 ^^^ laneAt A x 3 ^^^ laneAt A x 4) →
    (∀ x x₁ x₄ : Fin 5, x₄.val = (x.val + 4) % 5 → x₁.val = (x.val + 1) % 5 →
      D x = C x₄ ^^^ rotl64 (C x₁) 1) →
    ∀ x y, laneAt (theta A) x y = laneAt A x y ^^^ D x) ∧
  (∀ A : Lanes, (∀ x y, laneAt A x y = 0) → theta A = A) ∧
  (∀ A : Lanes, (∀ x y, laneAt A x y = BitVec.allOnes 64) → theta A = A)

/-- Rho (40_permutation.md section 2, with the offsets of 10_state.md section 3): it rotates each lane by the offset of its position; the offset of (0, 0) is 0, and
the walk from (1, 0) by (x, y) to (y, 2x + 3y) gives its position number t the offset (t + 1)(t + 2)/2 mod 64, visits
the 24 other positions once each (the spec's own evaluation, 10_state.md section 3), and gives no two of them the
same offset and none the offset 0. -/
def Obligations.RhoRotatesByTheWalk : Prop :=
  ∃ w : Nat → Fin 5 × Fin 5, w 0 = (1, 0) ∧
    (∀ t, (w (t + 1)).1 = (w t).2 ∧
      (w (t + 1)).2.val = (2 * (w t).1.val + 3 * (w t).2.val) % 5) ∧
    (∀ x y : Fin 5, (x, y) ≠ (0, 0) → ∃! t, t < 24 ∧ w t = (x, y)) ∧
    (∀ t < 24, ∀ u < 24, (t + 1) * (t + 2) / 2 % 64 = (u + 1) * (u + 2) / 2 % 64 → t = u) ∧
    (∀ t < 24, (t + 1) * (t + 2) / 2 % 64 ≠ 0) ∧
    (∀ A : Lanes, laneAt (rho A) 0 0 = laneAt A 0 0 ∧
      ∀ t < 24, laneAt (rho A) (w t).1 (w t).2 =
        rotl64 (laneAt A (w t).1 (w t).2) ((t + 1) * (t + 2) / 2 % 64))

/-- R104: Pi relabels the lanes: new (x, y) is old (x + 3y mod 5, x); lane (0, 0) stays; it is a bijection, by the table
of lane indices. -/
def Obligations.PiMovesTheLanes : Prop :=
  ∀ A : Lanes,
    (∀ x y z : Fin 5, z.val = (x.val + 3 * y.val) % 5 → laneAt (pi A) x y = laneAt A z x) ∧
    laneAt (pi A) 0 0 = laneAt A 0 0 ∧
    (∀ B, pi A = pi B → A = B) ∧
    (∀ i : Fin 25, lane (pi A) i = lane A
      (([0, 6, 12, 18, 24, 3, 9, 10, 16, 22, 1, 7, 13, 19, 20, 4, 5, 11, 17, 23, 2, 8, 14, 15, 21] :
        List (Fin 25))[i.val]?.getD 0))

/-- R105: Chi, each row from its five old lanes; the bit of the result at a position depends on the bits at that
position only; rows of all zeros and of all ones are fixed. -/
def Obligations.ChiMixesTheRows : Prop :=
  ∀ A : Lanes,
    (∀ x x₁ x₂ y : Fin 5, x₁.val = (x.val + 1) % 5 → x₂.val = (x.val + 2) % 5 →
      laneAt (chi A) x y = laneAt A x y ^^^ (~~~(laneAt A x₁ y) &&& laneAt A x₂ y) ∧
      ∀ z < 64, (laneAt (chi A) x y).getLsbD z =
        xor ((laneAt A x y).getLsbD z)
          (!(laneAt A x₁ y).getLsbD z && (laneAt A x₂ y).getLsbD z)) ∧
    (∀ y, (∀ x, laneAt A x y = 0) → ∀ x, laneAt (chi A) x y = 0) ∧
    (∀ y, (∀ x, laneAt A x y = BitVec.allOnes 64) → ∀ x, laneAt (chi A) x y = BitVec.allOnes 64)

/-- R106: Iota XORs the round constant into lane (0, 0) only. -/
def Obligations.IotaAddsTheRoundConstant : Prop :=
  ∀ (A : Lanes) (ir : Fin 24) (x y : Fin 5),
    laneAt (iota A ir) x y =
      if x = 0 ∧ y = 0 then laneAt A x y ^^^ roundConstant ir else laneAt A x y

/-- The round constants follow the generating rule of 10_state.md section 3 (general knowledge, as the spec marks it):
bit 2^j − 1 of RC[ir] is rc(j + 7·ir), and every other bit is 0. -/
def Obligations.RoundConstantsFollowTheGeneratingRule : Prop :=
  ∀ (ir : Fin 24) (z : Nat), z < 64 →
    (roundConstant ir).getLsbD z =
      (List.range 7).any fun j => decide (z = 2 ^ j - 1) && rcBit (j + 7 * ir.val)

/-- R107 and R108: one round is theta, rho, pi, chi, iota in this order, and the permutation is the rounds 0 to 23 in
this order: a run that starts at A and makes round n from state n ends at KeccakP(A) after 24. -/
def Obligations.PermutationIsTheRoundsInOrder : Prop :=
  (∀ A ir, rnd A ir = iota (chi (pi (rho (theta A)))) ir) ∧
  (∀ (A : Lanes) (run : Nat → Lanes), run 0 = A →
    (∀ (n : Nat) (h : n < 24), run (n + 1) = rnd (run n) ⟨n, h⟩) → keccakP A = run 24)

/-- KeccakP is a bijection on the set of states (40_permutation.md section 3, an inference the spec marks as its own,
with general knowledge: "`KeccakP` is a bijection on the set of states"). -/
def Obligations.KeccakPIsABijection : Prop := Function.Bijective keccakP

/-- The fused form of rho and pi that the spec permits (40_permutation.md section 3, derived there):
B[y][(2x + 3y) mod 5] = ROTL64(T[x][y], RHO[x][y]); and, under it, that Pi moves the lane at (X, Y) to
(Y, (2X + 3Y) mod 5) (section 2, derived there). -/
def Obligations.RhoAndPiFuse : Prop :=
  ∀ (T : Lanes) (x y z : Fin 5), z.val = (2 * x.val + 3 * y.val) % 5 →
    laneAt (pi T) y z = laneAt T x y ∧
    laneAt (pi (rho T)) y z = rotl64 (laneAt T x y) (rhoOffset x y)

/-! ## Padding, blocks and the sponge -/

/-- R146: the padded final block has exactly `rate` bytes: the tail, then the combined byte when one byte is free, else
the suffix, zeros, and 0x80 last. -/
def Obligations.PadBlockBytes : Prop :=
  ∀ (tail : List Byte) (rate : Nat) (dom : Domain), tail.length < rate →
    (padBlock tail rate dom).length = rate ∧
    ∀ p < rate, (padBlock tail rate dom)[p]? = some (
      if h : p < tail.length then tail[p]
      else if rate - tail.length = 1 then
        (match dom with | .ordinary => 0x86#8 | .extendable => 0x9F#8)
      else if p = tail.length then
        (match dom with | .ordinary => 0x06#8 | .extendable => 0x1F#8)
      else if p = rate - 1 then 0x80#8 else 0)

/-- The engine's padding is the source's: padding a state that has absorbed the tail equals absorbing the padded
block, and one formula covers both cases: the suffix at pos, then 0x80 at rate − 1 (42_padding.md, the two equalities
the spec derives: "Equality with the source's form", "One formula for both cases"). -/
def Obligations.PaddingByXorIsAbsorbingThePadBlock : Prop :=
  (∀ (A : Lanes) (tail : List Byte) (rate : Nat) (dom : Domain), tail.length < rate → rate ≤ 200 →
    padXor (absorbBlock A tail rate) tail.length rate dom =
      absorbBlock A (padBlock tail rate dom) rate) ∧
  (∀ (A : Lanes) (pos rate : Nat) (dom : Domain), pos < rate →
    padXor A pos rate dom = memXor (memXor A pos (suffix dom)) (rate - 1) 0x80)

/-- R130: AbsorbBlock XORs each byte of the block into the state byte at its position and leaves the bytes past the
block, the capacity part among them, unchanged. -/
def Obligations.AbsorbBlockXorsByteByByte : Prop :=
  ∀ (A : Lanes) (d : List Byte) (rate : Nat), d.length ≤ rate →
    ∀ p : Fin 200, memRead (absorbBlock A d rate) p =
      if h : p.val < d.length then memRead A p ^^^ d[p.val] else memRead A p

/-- R131: SqueezeBlock reads the bytes S[0] to S[n − 1] in order. -/
def Obligations.SqueezeBlockReadsInOrder : Prop :=
  ∀ (A : Lanes) (n : Nat), n ≤ 200 → (squeezeBlock A n).length = n ∧
    ∀ p : Fin 200, p.val < n → (squeezeBlock A n)[p.val]? = some (memRead A p)

/-- Absorbing a block a byte at a time equals AbsorbBlock, with the permutation when the block is full
(41_absorb_squeeze.md section 3, derived there). -/
def Obligations.AbsorbingByBytesIsAbsorbBlock : Prop :=
  ∀ (d : List Byte) (s : State), s.phase = .absorb → s.pos = 0 → d.length ≤ rate s.variant →
    ∃ t rs, serve (d.map fun b => send (.absorb b)) s = some (t, rs) ∧
      (∀ r ∈ rs, r = some ⟨0, 0⟩) ∧
      State.sameEngine
        (if d.length = rate s.variant then
          { s with lanes := keccakP (absorbBlock s.lanes d (rate s.variant)) }
         else
          { s with lanes := absorbBlock s.lanes d (rate s.variant), pos := BitVec.ofNat 8 d.length }) t

/-- n SQUEEZE commands return the first n bytes of the blocks of A, KeccakP(A), KeccakP(KeccakP(A)) and so on, for an XOF
variant, and for a fixed variant up to DLEN (41_absorb_squeeze.md section 3, derived there). -/
def Obligations.SqueezingByBytesIsSqueezeBlocks : Prop :=
  ∀ (n : Nat) (s : State), s.phase = .squeeze → s.pos = 0 →
    (dlen s.variant = none ∨ ∃ k, dlen s.variant = some k ∧ n ≤ k ∧ s.outcnt = 0) →
    ∃ t rs, serve (squeezeN n) s = some (t, rs) ∧ rs.length = n ∧
      ∀ j < n, ∀ p : Fin 200, p.val = j % rate s.variant →
        rs[j]? = some (some ⟨(memRead (keccakP^[j / rate s.variant] s.lanes) p).setWidth 64, 0⟩)

/-- R185: for a fixed variant exactly DLEN bytes are delivered, DONE is 1 from the DLEN-th on and not before, and the
next SQUEEZE raises ERR_LENGTH; for an XOF variant any number of SQUEEZE commands succeeds, and nothing is counted. -/
def Obligations.OutputLengthPolicy : Prop :=
  ∀ (s : State) (n : Nat), s.phase = .squeeze → s.pos = 0 → s.outcnt = 0 →
    (∀ k, dlen s.variant = some k → n ≤ k →
      ∃ t rs, serve (squeezeN n) s = some (t, rs) ∧
        (∀ r ∈ rs, ∃ v, r = some ⟨v, 0⟩) ∧ t.outcnt.toNat = n ∧
        (t.done = true ↔ n = k) ∧
        (n = k → ∀ d, transact 0x5000 d t = .next (t.afterFault 2))) ∧
    (dlen s.variant = none →
      ∃ t rs, serve (squeezeN n) s = some (t, rs) ∧
        (∀ r ∈ rs, ∃ v, r = some ⟨v, 0⟩) ∧ t.outcnt = 0 ∧ t.done = false)

/-- The reference function Sponge: its result has exactly n bytes, a shorter output is a prefix of a longer one, and its
byte j is byte j mod rate of the state permuted j div rate more times after the message (43_sponge.md section 1, where
the first two are stated of it). -/
def Obligations.SpongeOutput : Prop :=
  ∀ (rate : Nat) (dom : Domain) (m : List Byte) (n : Nat), 1 ≤ rate → rate ≤ 200 →
    (sponge rate dom m n).length = n ∧
    (∀ k ≤ n, sponge rate dom m k = (sponge rate dom m n).take k) ∧
    (∀ j < n, ∀ p : Fin 200, p.val = j % rate →
      (sponge rate dom m n)[j]? =
        some (memRead (keccakP^[j / rate] (absorbMessage rate dom m)) p))

/-- The state after INIT and the message, and after FINAL, is the reference function's after its steps 2 and 3
(43_sponge.md section 4, derived there). -/
def Obligations.StateAfterTheMessage : Prop :=
  ∀ (v : BitVec 3) (w : Variant) (m : List Byte) (s : State), variantOfCode v = some w →
    ∃ t rs, serve (send (.init v) :: m.map fun b => send (.absorb b)) s = some (t, rs) ∧
      t.phase = .absorb ∧ t.variant = w ∧ t.pos.toNat = m.length % rate w ∧ t.outcnt = 0 ∧
      t.err = 0 ∧
      t.lanes = absorbBlock (absorbBlocks (rate w) m (m.length / rate w))
        (messageTail (rate w) m) (rate w) ∧
      ∃ u, exec .final t = .next u ∧ u.lanes = absorbMessage (rate w) (domain w) m ∧
        u.phase = .squeeze ∧ u.variant = w ∧ u.pos = 0 ∧ u.outcnt = 0 ∧ u.err = 0

/-- The computation theorem (43_sponge.md section 4, derived there: "raises no fault, and its n SQUEEZE responses are, in
order, the n bytes of Sponge"). From any state and phase whatever, INIT v, the message, FINAL and n SQUEEZEs, with any
number of STATUS and RDLANE commands and waits in between, raise no fault and return the n bytes of the reference
function, which is the digest where the length is one the variant has; DONE is 1 after a fixed digest. -/
def Obligations.CommandsComputeTheDigest : Prop :=
  ∀ (v : BitVec 3) (w : Variant) (m : List Byte) (n : Nat) (es : List HostEvent) (s : State),
    variantOfCode v = some w → (∀ k, dlen w = some k → n ≤ k) →
    es.filter (fun e => !isObserver e) = hashCommands v m n →
    ∃ t rs, serve es s = some (t, rs) ∧
      (∀ r, some r ∈ rs → r.rerr = 0) ∧
      (responsesTo isSqueeze es rs).map (fun r => r.rdata) =
        (sponge (rate w) (domain w) m n).map (fun b => b.setWidth 64) ∧
      (∀ bs, digest w m n = some bs → bs = sponge (rate w) (domain w) m n) ∧
      (dlen w = none ∨ dlen w = some n → (digest w m n).isSome = true) ∧
      (dlen w = some n → t.done = true)

/-- Testing the raw permutation: CLEAR, WRLANE of all lanes, PERMUTE and RDLANE of all lanes raise no fault and return KeccakP of an
arbitrary state (45_lane_access_system.md, derived there). -/
def Obligations.RawPermutationTest : Prop :=
  ∀ (A : Lanes) (s : State),
    ∃ t rs, serve (send .clear :: wrState A ++ send .permute :: rdState) s = some (t, rs) ∧
      (∀ r ∈ rs, ∃ v, r = some ⟨v, 0⟩) ∧
      rs.drop 27 = (List.finRange 25).map (fun i => some ⟨lane (keccakP A) i, 0⟩) ∧
      t.phase = .idle ∧ t.lanes = keccakP A

/-! ## The signal-level port, and several engines -/

/-- R76: a command is accepted in a cycle with `cmd_valid` and `cmd_ready` 1 and `rst` 0; its response comes LATENCY cycles
later, for one cycle; `cmd_ready` is 0 until the cycle after; whatever the host drives meanwhile has no effect; and the
state is that of the atomic step. Without `cmd_valid` the engine stays ready and unchanged. -/
def Obligations.HandshakeTakesOneCommandAtATime : Prop :=
  (∀ (cfg : Config) (s t : State) (first : PortIn) (ins : List PortIn),
    first.rst = false → first.cmdValid = true → (∀ i ∈ ins, i.rst = false) →
    transact first.cmd first.wdata s = .next t →
    ins.length = cfg.latency first.cmd first.wdata s →
    runClock cfg (first :: ins) ⟨s, .ready⟩ =
      some (⟨t, .ready⟩,
        ⟨true, none⟩ :: List.replicate (ins.length - 1) ⟨false, none⟩ ++ [⟨false, t.rsp⟩])) ∧
  (∀ (cfg : Config) (s : State) (i : PortIn), i.rst = false → i.cmdValid = false →
    clockEdge cfg i ⟨s, .ready⟩ = .next ⟨s, .ready⟩ ∧ portOut i ⟨s, .ready⟩ = ⟨true, none⟩)

/-- Reset at the signals (70_reset_and_hazards.md section 1): while `rst` is 1 the engine takes the reset state, accepts no
command and gives no response, and a command in flight is abandoned. That the outputs are masked in the very cycle in
which `rst` is 1, the one in which it rises included, is the model's choice, log entry 9. -/
def Obligations.ResetAbandonsTheCommandInFlight : Prop :=
  ∀ (cfg : Config) (c : Clocked) (i : PortIn), i.rst = true →
    portOut i c = ⟨false, none⟩ ∧
    clockEdge cfg i c = .next ⟨{ State.reset with pending := c.core.pending }, .ready⟩ ∧
    ∀ j : PortIn, j.rst = false →
      (portOut j ⟨{ State.reset with pending := c.core.pending }, .ready⟩).cmdReady = true

/-- The clocked port refines the atomic step: over any number of cycles without reset, serving the accepted commands one
after the other gives the same state and the same responses in the same order, whatever the latencies (30_encoding.md
section 1: "A model that executes each command as one atomic step is exact"). -/
def Obligations.ClockedPortRefinesTheStep : Prop :=
  ∀ (cfg : Config) (ins : List PortIn) (s : State) (c : Clocked) (outs : List PortOut),
    (∀ i ∈ ins, i.rst = false) → runClock cfg ins ⟨s, .ready⟩ = some (c, outs) →
    c.flight = .ready →
    ∃ rs, serve ((ins.zip outs).filterMap fun io =>
        if io.1.cmdValid && io.2.cmdReady then some (.command io.1.cmd io.1.wdata) else none) s =
      some (c.core, rs) ∧
      outs.filterMap (fun o => o.rsp) = rs.filterMap id

/-- R68: engines share nothing. An event at one engine changes no other, and events at two different engines give the same
result in either order. -/
def Obligations.EnginesAreIndependent : Prop :=
  ∀ (cfg : Config) (sys a b : Engines cfg) (k l : Fin cfg.nInst) (e f : HostEvent), k ≠ l →
    sys.event k e = .next a →
    a[l] = sys[l] ∧
    (a.event l f = .next b → ∃ c, sys.event l f = .next c ∧ c.event k e = .next b)
end

