-- ==== Sys2Proof/Laws/Decode.lean ====
section
/-! SUPPORT. The fields of an encoded command word. -/

namespace Sys2Proof

@[simp] theorem opcField_encode (i : Instr) : opcField (encode i) = opcodeOf i := by
  ext n hn
  have h : (argOf i).getLsbD (12 + n) = false := BitVec.getLsbD_of_ge _ _ (by omega)
  simp [opcField, encode, hn, h, show 12 + n < 16 by omega]

@[simp] theorem rsvField_encode (i : Instr) : rsvField (encode i) = 0 := by
  ext n hn
  simp [rsvField, encode, show 8 + n < 12 by omega]

@[simp] theorem argField_encode (i : Instr) : argField (encode i) = argOf i := by
  ext n hn
  simp [argField, encode, hn, show n < 12 by omega, show n < 16 by omega]

end Sys2Proof
end

