-- ==== Sys2Proof/Laws/Ops.lean ====
section
/-! SUPPORT. What the shared operations do: lanes, bytes, and the ways a command can end. -/

namespace Sys2Proof.Machine

@[simp] theorem fiveGet_fiveOf {α : Type} (f : Fin 5 → α) (i : Fin 5) : fiveGet (fiveOf f) i = f i := by
  fin_cases i <;> rfl

theorem fiveGet_fiveSet {α : Type} (r : Five α) (i j : Fin 5) (v : α) :
    fiveGet (fiveSet r i v) j = if j = i then v else fiveGet r j := by
  fin_cases i <;> fin_cases j <;> rfl

theorem five_ext {α : Type} {r q : Five α} (h : ∀ i, fiveGet r i = fiveGet q i) : r = q := by
  cases r; cases q
  have h0 := h 0
  have h1 := h 1
  have h2 := h 2
  have h3 := h 3
  have h4 := h 4
  simp only [fiveGet] at h0 h1 h2 h3 h4
  subst h0 h1 h2 h3 h4
  rfl

@[simp] theorem laneAt_ofXY (f : Fin 5 → Fin 5 → Lane) (x y : Fin 5) : laneAt (ofXY f) x y = f x y := by
  simp [laneAt, ofXY]

/-- Two lane arrays with the same lanes are equal. -/
theorem lanes_ext {A B : Lanes} (h : ∀ x y, laneAt A x y = laneAt B x y) : A = B :=
  five_ext fun y => five_ext fun x => h x y

@[simp] theorem laneAt_zeroLanes (x y : Fin 5) : laneAt zeroLanes x y = 0 := by
  fin_cases x <;> fin_cases y <;> rfl

@[simp] theorem columnOf_laneIndex (x y : Fin 5) : columnOf (laneIndex x y) = x := by
  apply Fin.ext; simp only [columnOf, laneIndex]; omega

@[simp] theorem rowOf_laneIndex (x y : Fin 5) : rowOf (laneIndex x y) = y := by
  apply Fin.ext; simp only [rowOf, laneIndex]; omega

@[simp] theorem laneIndex_columnOf_rowOf (i : Fin 25) : laneIndex (columnOf i) (rowOf i) = i := by
  apply Fin.ext; simp only [rowOf, columnOf, laneIndex]; omega

@[simp] theorem lane_laneIndex (A : Lanes) (x y : Fin 5) : lane A (laneIndex x y) = laneAt A x y := by
  simp [lane]

/-- Two lane arrays that agree at every lane index are equal. -/
theorem lanes_ext_index {A B : Lanes} (h : ∀ i, lane A i = lane B i) : A = B :=
  lanes_ext fun x y => by simpa using h (laneIndex x y)

/-- Writing a lane changes that lane and no other. -/
theorem lane_setLane (A : Lanes) (i j : Fin 25) (v : Lane) :
    lane (setLane A i v) j = if j = i then v else lane A j := by
  have hij : j = i ↔ rowOf j = rowOf i ∧ columnOf j = columnOf i := by
    constructor
    · rintro rfl; exact ⟨rfl, rfl⟩
    · rintro ⟨h1, h2⟩
      rw [← laneIndex_columnOf_rowOf j, ← laneIndex_columnOf_rowOf i, h1, h2]
  simp only [lane, laneAt, setLane, fiveGet_fiveSet, hij]
  by_cases h1 : rowOf j = rowOf i <;> by_cases h2 : columnOf j = columnOf i <;>
    simp [h1, h2, fiveGet_fiveSet]

theorem laneAt_setLane (A : Lanes) (i : Fin 25) (v : Lane) (x y : Fin 5) :
    laneAt (setLane A i v) x y = if laneIndex x y = i then v else laneAt A x y := by
  rw [← lane_laneIndex, lane_setLane, lane_laneIndex]

/-- Byte `k` of a lane after a byte was XORed in at byte `j`. -/
theorem byte_of_xor (v : Lane) (b : Byte) (j k : Nat) (hj : j < 8) (hk : k < 8) :
    ((v ^^^ (b.setWidth 64 <<< (8 * j))) >>> (8 * k)).setWidth 8 =
      if k = j then (v >>> (8 * k)).setWidth 8 ^^^ b else (v >>> (8 * k)).setWidth 8 := by
  ext n hn
  have h64 : 8 * k + n < 64 := by omega
  by_cases h : k = j
  · subst h
    simp [hn, h64, show n < 64 by omega]
  · by_cases hlt : 8 * k + n < 8 * j
    · simp [h, BitVec.getLsbD_ushiftRight, BitVec.getLsbD_shiftLeft, hlt]
    · have hz : b.getLsbD (8 * k + n - 8 * j) = false := BitVec.getLsbD_of_ge _ _ (by omega)
      simp [h, BitVec.getLsbD_ushiftRight, BitVec.getLsbD_shiftLeft, hz]

/-- XORing a byte changes that byte of the byte view and no other. -/
theorem memRead_memXor (A : Lanes) (p : Nat) (v : Byte) (q : Fin 200) :
    memRead (memXor A p v) q = if q.val = p then memRead A q ^^^ v else memRead A q := by
  by_cases hp : p < 200
  · simp only [memXor, hp, dite_true, memRead, lane_setLane]
    by_cases hl : laneOfByte q = laneOfByte ⟨p, hp⟩
    · have hd : q.val / 8 = p / 8 := by simpa [laneOfByte] using hl
      have := byte_of_xor (lane A (laneOfByte ⟨p, hp⟩)) v (p % 8) (q.val % 8)
        (Nat.mod_lt _ (by decide)) (Nat.mod_lt _ (by decide))
      simp only [hl, if_true, byteShift, this]
      have hq : q.val % 8 = p % 8 ↔ q.val = p := by omega
      simp only [hq]
    · have hq : q.val ≠ p := by
        rintro rfl; exact hl rfl
      simp [hl, hq]
  · have hq : q.val ≠ p := by have := q.isLt; omega
    simp [memXor, hp, hq]

/-- `respond` always answers a next state. -/
theorem respond_eq (v : Lane) (s : State) : respond v s = .next (s.answered v) := rfl

/-- `raise` always answers a next state: the fault entry. -/
theorem raise_eq (c : FaultCode) (s : State) : raise c s = .next (s.faulted c) := rfl

/-- A phase guard passes the command on or raises ERR_SEQ. -/
theorem inPhase_cases (p : Phase) (s : State) (k : Host.Outcome State Fault Refusal) :
    (s.phase = p ∧ inPhase p s k = k) ∨ (s.phase ≠ p ∧ inPhase p s k = .next (s.faulted .errSeq)) := by
  by_cases h : s.phase = p <;> simp [inPhase, h, raise_eq]

/-- A lane operand names a lane or raises ERR_ILLEGAL. -/
theorem withLane_cases (i : BitVec 5) (s : State) (k : Fin 25 → Host.Outcome State Fault Refusal) :
    (∃ h : i.toNat < 25, withLane i s k = k ⟨i.toNat, h⟩) ∨
    (25 ≤ i.toNat ∧ withLane i s k = .next (s.faulted .errIllegal)) := by
  by_cases h : i.toNat < 25
  · exact .inl ⟨h, by simp [withLane, h]⟩
  · exact .inr ⟨by omega, by simp [withLane, h, raise_eq]⟩

/-- A byte operand names a byte or stops the model. -/
theorem withByte_cases (p : Nat) (k : Fin 200 → Host.Outcome State Fault Refusal) :
    (∃ h : p < 200, withByte p k = k ⟨p, h⟩) ∨ (200 ≤ p ∧ withByte p k = .fault .noSuchByte) := by
  by_cases h : p < 200
  · exact .inl ⟨h, by simp [withByte, h]⟩
  · exact .inr ⟨by omega, by simp [withByte, h]⟩

end Sys2Proof.Machine
end

