-- ==== Sys2Proof/Laws/State.lean ====
section
/-! SUPPORT. The fields of the named updates of State, one lemma per field per update. -/

namespace Sys2Proof.Machine

variable (s : State)

@[simp] theorem answered_lanes (v : Lane) : (s.answered v).lanes = s.lanes := rfl
@[simp] theorem answered_variant (v : Lane) : (s.answered v).variant = s.variant := rfl
@[simp] theorem answered_phase (v : Lane) : (s.answered v).phase = s.phase := rfl
@[simp] theorem answered_pos (v : Lane) : (s.answered v).pos = s.pos := rfl
@[simp] theorem answered_outcnt (v : Lane) : (s.answered v).outcnt = s.outcnt := rfl
@[simp] theorem answered_err (v : Lane) : (s.answered v).err = s.err := rfl
@[simp] theorem answered_rsp (v : Lane) : (s.answered v).rsp = some ⟨v, 0⟩ := rfl
@[simp] theorem answered_pending (v : Lane) : (s.answered v).pending = s.pending := rfl

@[simp] theorem faulted_lanes (c : FaultCode) : (s.faulted c).lanes = s.lanes := rfl
@[simp] theorem faulted_variant (c : FaultCode) : (s.faulted c).variant = s.variant := rfl
@[simp] theorem faulted_phase (c : FaultCode) : (s.faulted c).phase = .error := rfl
@[simp] theorem faulted_pos (c : FaultCode) : (s.faulted c).pos = s.pos := rfl
@[simp] theorem faulted_outcnt (c : FaultCode) : (s.faulted c).outcnt = s.outcnt := rfl
@[simp] theorem faulted_err (c : FaultCode) :
    (s.faulted c).err = if s.phase = .error then s.err else faultCode c := rfl
@[simp] theorem faulted_rsp (c : FaultCode) : (s.faulted c).rsp = some ⟨0, faultCode c⟩ := rfl
@[simp] theorem faulted_pending (c : FaultCode) : (s.faulted c).pending = s.pending := rfl

@[simp] theorem cleared_lanes : s.cleared.lanes = zeroLanes := rfl
@[simp] theorem cleared_variant : s.cleared.variant = .sha3_224 := rfl
@[simp] theorem cleared_phase : s.cleared.phase = .idle := rfl
@[simp] theorem cleared_pos : s.cleared.pos = 0 := rfl
@[simp] theorem cleared_outcnt : s.cleared.outcnt = 0 := rfl
@[simp] theorem cleared_err : s.cleared.err = 0 := rfl
@[simp] theorem cleared_rsp : s.cleared.rsp = s.rsp := rfl
@[simp] theorem cleared_pending : s.cleared.pending = s.pending := rfl

@[simp] theorem started_lanes (w : Variant) : (s.started w).lanes = zeroLanes := rfl
@[simp] theorem started_variant (w : Variant) : (s.started w).variant = w := rfl
@[simp] theorem started_phase (w : Variant) : (s.started w).phase = .absorb := rfl
@[simp] theorem started_pos (w : Variant) : (s.started w).pos = 0 := rfl
@[simp] theorem started_outcnt (w : Variant) : (s.started w).outcnt = 0 := rfl
@[simp] theorem started_err (w : Variant) : (s.started w).err = 0 := rfl
@[simp] theorem started_rsp (w : Variant) : (s.started w).rsp = s.rsp := rfl
@[simp] theorem started_pending (w : Variant) : (s.started w).pending = s.pending := rfl

@[simp] theorem finished_lanes :
    s.finished.lanes = keccakP (padXor s.lanes s.pos.toNat (rate s.variant) (domain s.variant)) := rfl
@[simp] theorem finished_variant : s.finished.variant = s.variant := rfl
@[simp] theorem finished_phase : s.finished.phase = .squeeze := rfl
@[simp] theorem finished_pos : s.finished.pos = 0 := rfl
@[simp] theorem finished_outcnt : s.finished.outcnt = 0 := rfl
@[simp] theorem finished_err : s.finished.err = s.err := rfl
@[simp] theorem finished_rsp : s.finished.rsp = s.rsp := rfl
@[simp] theorem finished_pending : s.finished.pending = s.pending := rfl

@[simp] theorem squeezed_lanes : s.squeezed.lanes = s.lanes := rfl
@[simp] theorem squeezed_variant : s.squeezed.variant = s.variant := rfl
@[simp] theorem squeezed_phase : s.squeezed.phase = s.phase := rfl
@[simp] theorem squeezed_pos : s.squeezed.pos = s.pos + 1 := rfl
@[simp] theorem squeezed_outcnt :
    s.squeezed.outcnt = if (dlen s.variant).isSome then s.outcnt + 1 else s.outcnt := rfl
@[simp] theorem squeezed_err : s.squeezed.err = s.err := rfl
@[simp] theorem squeezed_rsp : s.squeezed.rsp = s.rsp := rfl
@[simp] theorem squeezed_pending : s.squeezed.pending = s.pending := rfl

@[simp] theorem takeReset_lanes : (takeReset s).lanes = zeroLanes := rfl
@[simp] theorem takeReset_variant : (takeReset s).variant = .sha3_224 := rfl
@[simp] theorem takeReset_phase : (takeReset s).phase = .idle := rfl
@[simp] theorem takeReset_pos : (takeReset s).pos = 0 := rfl
@[simp] theorem takeReset_outcnt : (takeReset s).outcnt = 0 := rfl
@[simp] theorem takeReset_err : (takeReset s).err = 0 := rfl
@[simp] theorem takeReset_rsp : (takeReset s).rsp = none := rfl
@[simp] theorem takeReset_pending : (takeReset s).pending = s.pending := rfl

@[simp] theorem takeWait_lanes : (takeWait s).lanes = s.lanes := rfl
@[simp] theorem takeWait_variant : (takeWait s).variant = s.variant := rfl
@[simp] theorem takeWait_phase : (takeWait s).phase = s.phase := rfl
@[simp] theorem takeWait_pos : (takeWait s).pos = s.pos := rfl
@[simp] theorem takeWait_outcnt : (takeWait s).outcnt = s.outcnt := rfl
@[simp] theorem takeWait_err : (takeWait s).err = s.err := rfl
@[simp] theorem takeWait_rsp : (takeWait s).rsp = none := rfl
@[simp] theorem takeWait_pending : (takeWait s).pending = s.pending := rfl

@[simp] theorem absorbed_variant (b : Byte) : (s.absorbed b).variant = s.variant := by
  simp only [State.absorbed]; split <;> rfl
@[simp] theorem absorbed_phase (b : Byte) : (s.absorbed b).phase = s.phase := by
  simp only [State.absorbed]; split <;> rfl
@[simp] theorem absorbed_outcnt (b : Byte) : (s.absorbed b).outcnt = s.outcnt := by
  simp only [State.absorbed]; split <;> rfl
@[simp] theorem absorbed_err (b : Byte) : (s.absorbed b).err = s.err := by
  simp only [State.absorbed]; split <;> rfl
@[simp] theorem absorbed_rsp (b : Byte) : (s.absorbed b).rsp = s.rsp := by
  simp only [State.absorbed]; split <;> rfl
@[simp] theorem absorbed_pending (b : Byte) : (s.absorbed b).pending = s.pending := by
  simp only [State.absorbed]; split <;> rfl

@[simp] theorem refilled_variant : s.refilled.variant = s.variant := by
  simp only [State.refilled]; split <;> rfl
@[simp] theorem refilled_phase : s.refilled.phase = s.phase := by
  simp only [State.refilled]; split <;> rfl
@[simp] theorem refilled_outcnt : s.refilled.outcnt = s.outcnt := by
  simp only [State.refilled]; split <;> rfl
@[simp] theorem refilled_err : s.refilled.err = s.err := by
  simp only [State.refilled]; split <;> rfl
@[simp] theorem refilled_rsp : s.refilled.rsp = s.rsp := by
  simp only [State.refilled]; split <;> rfl
@[simp] theorem refilled_pending : s.refilled.pending = s.pending := by
  simp only [State.refilled]; split <;> rfl

end Sys2Proof.Machine
end

