-- ==== Sys2Proof/Laws/Exec.lean ====
section
/-! SUPPORT. What a command can do, said once: it raises one of its faults, it completes, or the model stops
because POS names no byte. -/

namespace Sys2Proof.Machine

/-- The command raises the fault `c` in the state `s`. -/
def Raises (i : Instr) (s : State) (c : FaultCode) : Prop :=
  match i with
  | .status => False
  | .clear => False
  | .init v => variantOfCode v = none ∧ c = .errVariant
  | .absorb _ => s.phase ≠ .absorb ∧ c = .errSeq
  | .final => s.phase ≠ .absorb ∧ c = .errSeq
  | .squeeze =>
    (s.phase ≠ .squeeze ∧ c = .errSeq) ∨
    (s.phase = .squeeze ∧ s.delivered = true ∧ c = .errLength)
  | .permute => s.phase ≠ .idle ∧ c = .errSeq
  | .rdlane i => 25 ≤ i.toNat ∧ c = .errIllegal
  | .wrlane i _ =>
    (25 ≤ i.toNat ∧ c = .errIllegal) ∨ (i.toNat < 25 ∧ s.phase ≠ .idle ∧ c = .errSeq)

/-- The command has its own effect in `s` and leaves `t`. -/
def Completes (i : Instr) (s t : State) : Prop :=
  match i with
  | .status => t = s.answered (statusWord s)
  | .clear => t = s.cleared.answered 0
  | .init v => ∃ w, variantOfCode v = some w ∧ t = (s.started w).answered 0
  | .absorb b => s.phase = .absorb ∧ s.pos.toNat < 200 ∧ t = (s.absorbed b).answered 0
  | .final => s.phase = .absorb ∧ s.pos.toNat < 200 ∧ t = s.finished.answered 0
  | .squeeze =>
    s.phase = .squeeze ∧ s.delivered = false ∧ ∃ p : Fin 200, p.val = s.refilled.pos.toNat ∧
      t = s.refilled.squeezed.answered ((memRead s.refilled.lanes p).setWidth 64)
  | .permute => s.phase = .idle ∧ t = State.answered { s with lanes := keccakP s.lanes } 0
  | .rdlane i => ∃ k : Fin 25, k.val = i.toNat ∧ t = s.answered (lane s.lanes k)
  | .wrlane i d => ∃ k : Fin 25, k.val = i.toNat ∧ s.phase = .idle ∧
      t = State.answered { s with lanes := setLane s.lanes k d } 0

/-- POS names no byte, and the command asks for it. -/
def AsksForNoByte (i : Instr) (s : State) : Prop :=
  match i with
  | .status => False
  | .clear => False
  | .init _ => False
  | .absorb _ => s.phase = .absorb ∧ 200 ≤ s.pos.toNat
  | .final => s.phase = .absorb ∧ 200 ≤ s.pos.toNat
  | .squeeze => s.phase = .squeeze ∧ s.delivered = false ∧ 200 ≤ s.refilled.pos.toNat
  | .permute => False
  | .rdlane _ => False
  | .wrlane _ _ => False

/-- Every command does exactly one of the three. -/
theorem exec_cases (i : Instr) (s : State) :
    (∃ c, exec i s = .next (s.faulted c) ∧ Raises i s c) ∨
    (∃ t, exec i s = .next t ∧ Completes i s t) ∨
    (exec i s = .fault .noSuchByte ∧ AsksForNoByte i s) := by
  cases i with
  | status => exact .inr (.inl ⟨_, rfl, rfl⟩)
  | clear => exact .inr (.inl ⟨_, rfl, rfl⟩)
  | init v =>
    cases h : variantOfCode v with
    | none => exact .inl ⟨.errVariant, by simp [exec, execInit, h, raise_eq], h, rfl⟩
    | some w => exact .inr (.inl ⟨_, by simp [exec, execInit, h, respond_eq], w, h, rfl⟩)
  | absorb b =>
    rcases inPhase_cases .absorb s (withByte s.pos.toNat fun _ => respond 0 (s.absorbed b)) with
      ⟨hp, h⟩ | ⟨hp, h⟩
    · rcases withByte_cases s.pos.toNat (fun _ => respond 0 (s.absorbed b)) with ⟨hb, h'⟩ | ⟨hb, h'⟩
      · exact .inr (.inl ⟨_, h.trans h', hp, hb, rfl⟩)
      · exact .inr (.inr ⟨h.trans h', hp, hb⟩)
    · exact .inl ⟨_, h, hp, rfl⟩
  | final =>
    rcases inPhase_cases .absorb s (withByte s.pos.toNat fun _ => respond 0 s.finished) with
      ⟨hp, h⟩ | ⟨hp, h⟩
    · rcases withByte_cases s.pos.toNat (fun _ => respond 0 s.finished) with ⟨hb, h'⟩ | ⟨hb, h'⟩
      · exact .inr (.inl ⟨_, h.trans h', hp, hb, rfl⟩)
      · exact .inr (.inr ⟨h.trans h', hp, hb⟩)
    · exact .inl ⟨_, h, hp, rfl⟩
  | squeeze =>
    by_cases hp : s.phase = .squeeze
    · by_cases hd : s.delivered = true
      · exact .inl ⟨.errLength, by simp [exec, execSqueeze, inPhase, hp, hd, raise_eq], .inr ⟨hp, hd, rfl⟩⟩
      · have hd' : s.delivered = false := by simpa using hd
        rcases withByte_cases s.refilled.pos.toNat (fun p =>
            respond ((memRead s.refilled.lanes p).setWidth 64) s.refilled.squeezed) with
          ⟨hb, h'⟩ | ⟨hb, h'⟩
        · exact .inr (.inl ⟨_, by simp only [exec, execSqueeze, inPhase, hp, hd', h']; rfl,
            hp, hd', ⟨_, hb⟩, rfl, rfl⟩)
        · exact .inr (.inr ⟨by simp only [exec, execSqueeze, inPhase, hp, hd', h']; rfl,
            hp, hd', hb⟩)
    · exact .inl ⟨.errSeq, by simp [exec, execSqueeze, inPhase, hp, raise_eq], .inl ⟨hp, rfl⟩⟩
  | permute =>
    rcases inPhase_cases .idle s (respond 0 { s with lanes := keccakP s.lanes }) with
      ⟨hp, h⟩ | ⟨hp, h⟩
    · exact .inr (.inl ⟨_, h, hp, rfl⟩)
    · exact .inl ⟨_, h, hp, rfl⟩
  | rdlane i =>
    rcases withLane_cases i s (fun k => respond (lane s.lanes k) s) with ⟨hi, h⟩ | ⟨hi, h⟩
    · exact .inr (.inl ⟨_, h, ⟨_, hi⟩, rfl, rfl⟩)
    · exact .inl ⟨_, h, hi, rfl⟩
  | wrlane i d =>
    rcases withLane_cases i s (fun k =>
        inPhase .idle s (respond 0 { s with lanes := setLane s.lanes k d })) with ⟨hi, h⟩ | ⟨hi, h⟩
    · rcases inPhase_cases .idle s (respond 0 { s with lanes := setLane s.lanes ⟨i.toNat, hi⟩ d }) with
        ⟨hp, h'⟩ | ⟨hp, h'⟩
      · exact .inr (.inl ⟨_, h.trans h', ⟨_, hi⟩, rfl, hp, rfl⟩)
      · exact .inl ⟨_, h.trans h', .inr ⟨hi, hp, rfl⟩⟩
    · exact .inl ⟨_, h, .inl ⟨hi, rfl⟩⟩

/-- If a command answers `t`, it raised a fault or completed. -/
theorem exec_next {i : Instr} {s t : State} (h : exec i s = .next t) :
    (∃ c, t = s.faulted c ∧ Raises i s c) ∨ Completes i s t := by
  rcases exec_cases i s with ⟨c, e, r⟩ | ⟨u, e, r⟩ | ⟨e, _⟩
  · rw [h] at e; exact .inl ⟨c, by injection e, r⟩
  · rw [h] at e; injection e with e; exact .inr (e ▸ r)
  · rw [h] at e; cases e

/-- A command that completes answers `rerr = 0`. -/
theorem completes_rsp {i : Instr} {s t : State} (h : Completes i s t) : ∃ v, t.rsp = some ⟨v, 0⟩ := by
  cases i <;> simp only [Completes] at h
  case status => subst h; exact ⟨_, rfl⟩
  case clear => subst h; exact ⟨_, rfl⟩
  case init => obtain ⟨w, _, rfl⟩ := h; exact ⟨_, rfl⟩
  case absorb => obtain ⟨_, _, rfl⟩ := h; exact ⟨_, rfl⟩
  case final => obtain ⟨_, _, rfl⟩ := h; exact ⟨_, rfl⟩
  case squeeze => obtain ⟨_, _, _, _, rfl⟩ := h; exact ⟨_, rfl⟩
  case permute => obtain ⟨_, rfl⟩ := h; exact ⟨_, rfl⟩
  case rdlane => obtain ⟨_, _, rfl⟩ := h; exact ⟨_, rfl⟩
  case wrlane => obtain ⟨_, _, _, rfl⟩ := h; exact ⟨_, rfl⟩

theorem faultCode_ne_zero (c : FaultCode) : faultCode c ≠ 0 := by cases c <;> decide

/-- If a transaction answers `t`, its word was illegal and `t` is the fault entry, or it was a command's
and the command answered `t`. -/
theorem transact_next {cmd : BitVec 16} {d : Lane} {s t : State} (h : transact cmd d s = .next t) :
    (∃ e, decode cmd d = .error e ∧ t = s.faulted .errIllegal) ∨
    (∃ i, decode cmd d = .ok i ∧ exec i s = .next t) := by
  simp only [transact] at h
  split at h
  · rename_i e he
    injection h with h
    exact .inl ⟨e, he, h.symm⟩
  · rename_i i hi
    exact .inr ⟨i, hi, h⟩

/-- No command touches what the host will do next. -/
theorem exec_pending {i : Instr} {s t : State} (h : exec i s = .next t) : t.pending = s.pending := by
  rcases exec_next h with ⟨c, rfl, _⟩ | hc
  · rfl
  · cases i <;> simp only [Completes] at hc
    case status => subst hc; rfl
    case clear => subst hc; rfl
    case init => obtain ⟨w, _, rfl⟩ := hc; rfl
    case absorb => obtain ⟨_, _, rfl⟩ := hc; simp
    case final => obtain ⟨_, _, rfl⟩ := hc; rfl
    case squeeze => obtain ⟨_, _, _, _, rfl⟩ := hc; simp
    case permute => obtain ⟨_, rfl⟩ := hc; rfl
    case rdlane => obtain ⟨_, _, rfl⟩ := hc; rfl
    case wrlane => obtain ⟨_, _, _, rfl⟩ := hc; rfl

end Sys2Proof.Machine
end

