-- ==== Sys2Proof/Laws/PerInstr.lean ====
section
/-! SUPPORT. Per-command facts: the fields of every encoded command are those of R77 and R79. -/

namespace Sys2Proof.Laws.EncodedFields

/-- The word's OPC is at most 8 (R78), its RSV is 0 (R77), and its ARG is the command's operand (R79). -/
def Statement (i : Instr) : Prop :=
  (opcField (encode i)).toNat ≤ 8 ∧ rsvField (encode i) = 0 ∧ argField (encode i) = argOf i

theorem status : Statement .status := by simp [Statement, opcodeOf]
theorem clear : Statement .clear := by simp [Statement, opcodeOf]
theorem init (v : BitVec 3) : Statement (.init v) := by simp [Statement, opcodeOf]
theorem absorb (b : Byte) : Statement (.absorb b) := by simp [Statement, opcodeOf]
theorem final : Statement .final := by simp [Statement, opcodeOf]
theorem squeeze : Statement .squeeze := by simp [Statement, opcodeOf]
theorem permute : Statement .permute := by simp [Statement, opcodeOf]
theorem rdlane (i : BitVec 5) : Statement (.rdlane i) := by simp [Statement, opcodeOf]
theorem wrlane (i : BitVec 5) (d : Lane) : Statement (.wrlane i d) := by simp [Statement, opcodeOf]

end Sys2Proof.Laws.EncodedFields
end

