-- ==== Sys2Proof/Laws/Variant.lean ====
section
/-! SUPPORT. The bounds of the variant table, and ABSORB and SQUEEZE at and off the block boundary. -/

namespace Sys2Proof.Machine

theorem rate_le (v : Variant) : rate v ≤ 168 := by cases v <;> decide

theorem rate_ge (v : Variant) : 72 ≤ rate v := by cases v <;> decide

theorem rate_add_cap (v : Variant) : rate v + cap v = 200 := by cases v <;> decide

theorem dlen_le_rate {v : Variant} {n : Nat} (h : dlen v = some n) : n ≤ rate v ∧ n ≤ 64 := by
  cases v <;> simp only [dlen, Option.some.injEq, reduceCtorEq] at h <;> subst h <;> decide

/-- A variant is fixed exactly when its code is at most 3. -/
theorem dlen_isSome_iff (v : Variant) : (dlen v).isSome = true ↔ (variantCode v).toNat ≤ 3 := by
  cases v <;> decide

theorem variantCode_of {v : BitVec 3} {w : Variant} (h : variantOfCode v = some w) : variantCode w = v := by
  revert v w; decide

@[simp] theorem variantOfCode_variantCode (w : Variant) : variantOfCode (variantCode w) = some w := by
  cases w <;> rfl

theorem variantOfCode_eq_none (v : BitVec 3) : variantOfCode v = none ↔ 6 ≤ v.toNat := by
  revert v; decide

variable (s : State)

theorem absorbed_of_ne {b : Byte} (h : s.pos.toNat + 1 ≠ rate s.variant) (hp : s.pos.toNat < 255) :
    s.absorbed b = { s with lanes := memXor s.lanes s.pos.toNat b, pos := s.pos + 1 } := by
  have e : (s.pos + 1).toNat = s.pos.toNat + 1 := by simp [BitVec.toNat_add]; omega
  simp only [State.absorbed, e, if_neg h]

theorem absorbed_of_eq {b : Byte} (h : s.pos.toNat + 1 = rate s.variant) :
    s.absorbed b = { s with lanes := keccakP (memXor s.lanes s.pos.toNat b), pos := 0 } := by
  have := rate_le s.variant
  have e : (s.pos + 1).toNat = s.pos.toNat + 1 := by simp [BitVec.toNat_add]; omega
  simp only [State.absorbed, e, if_pos h]

theorem refilled_of_ne (h : s.pos.toNat ≠ rate s.variant) : s.refilled = s := by
  simp only [State.refilled, if_neg h]

theorem refilled_of_eq (h : s.pos.toNat = rate s.variant) :
    s.refilled = { s with lanes := keccakP s.lanes, pos := 0 } := by
  simp only [State.refilled, if_pos h]

end Sys2Proof.Machine
end

