-- ==== Sys2Proof/Tests/Slice0.lean ====
section
/-! SUPPORT. Tests with expected values from the spec's own worked examples (the rule or vector is named at each),
and one witness per statement that has hypotheses. -/

namespace Sys2Proof.Tests

open Sys2Proof Sys2Proof.Machine

/-! ## Small states -/

/-- The lane array with the given lanes, L[0] first. -/
def lanesOf (ls : List Lane) : Lanes := ofXY fun x y => ls.getD (x.val + 5 * y.val) 0

/-- The zero array but for the given lanes. -/
def lanesWith (ls : List (Fin 25 × Lane)) : Lanes := ls.foldl (fun A p => setLane A p.1 p.2) zeroLanes

/-- S0 of V-P4: `L[i] = i + 1`. -/
def s0 : Lanes := lanesOf ((List.range 25).map fun i => BitVec.ofNat 64 (i + 1))

/-- A state with zero lanes but L[0]. -/
def stateOf (v : Variant) (p : Phase) (pos : BitVec 8) (outcnt : BitVec 7) (err : BitVec 4) (l0 : Lane) :
    State :=
  { State.reset with
    lanes := lanesWith [(0, l0)], variant := v, phase := p, pos := pos, outcnt := outcnt, err := err }

/-- State I of D-3. -/
def stateI : State := State.reset
/-- State A of D-3. -/
def stateA : State := stateOf .sha3_256 .absorb 1 0 0 0x61
/-- State S of D-3, its lanes L[0] only: the byte taken next is byte 1 of L[0]. -/
def stateS : State := stateOf .sha3_256 .squeeze 1 1 0 0x7524A0FBF24B0880
/-- State E of D-3. -/
def stateE : State := stateOf .sha3_256 .error 1 0 4 0x61
/-- A SHA3-256 digest taken whole (D-4: status 0x02002016). -/
def stateDone : State := stateOf .sha3_256 .squeeze 32 32 0 0

/-- The response, the status word and L[0] after a transaction. -/
def shows (cmd : BitVec 16) (d : Lane) (s : State) : Option (Response × Lane × Lane) :=
  match transact cmd d s with
  | .next t => t.rsp.map fun r => (r, statusWord t, lane t.lanes 0)
  | .fault _ => none
  | .refused _ => none

/-! ## WellFormed and decoding -/

theorem test_rdlane_25_is_ill_formed : (Instr.rdlane 25).wellFormed = false := by decide
theorem test_wrlane_31_is_ill_formed : (Instr.wrlane 31 7).wellFormed = false := by decide
theorem test_ill_formed_words_are_refused :
    decodeTableWord 16 0x7019 = none ∧ decodeTableWord 16 0x801F = none ∧
    decodeTableWord 16 0x7020 = none := by decide

/-- The words of D-1, bit by bit from the patterns of R80. -/
theorem test_decode_words :
    decode 0b0000000000000000 9 = .ok .status ∧
    decode 0b0001000000000000 9 = .ok .clear ∧
    decode 0b0010000000000000 9 = .ok (.init 0) ∧
    decode 0b0010000000000111 9 = .ok (.init 7) ∧
    decode 0b0011000011111111 9 = .ok (.absorb 255) ∧
    decode 0b0100000000000000 9 = .ok .final ∧
    decode 0b0101000000000000 9 = .ok .squeeze ∧
    decode 0b0110000000000000 9 = .ok .permute ∧
    decode 0b0111000000011000 9 = .ok (.rdlane 24) ∧
    decode 0b1000000000011000 9 = .ok (.wrlane 24 9) := by decide

/-- D-2: the illegal words, with the clause of R81 each falls under. -/
theorem test_decode_illegal :
    decode 0x0001 0 = .error .argNotZero ∧ decode 0x0100 0 = .error .rsvNotZero ∧
    decode 0x2008 0 = .error .initArgHigh ∧ decode 0x2010 0 = .error .initArgHigh ∧
    decode 0x3100 0 = .error .rsvNotZero ∧ decode 0x4080 0 = .error .argNotZero ∧
    decode 0x5001 0 = .error .argNotZero ∧ decode 0x7019 0 = .error .laneIndexHigh ∧
    decode 0x7020 0 = .error .laneArgHigh ∧ decode 0x8019 0 = .error .laneIndexHigh ∧
    decode 0x9000 0 = .error .reservedOpcode ∧ decode 0xFFFF 0 = .error .rsvNotZero := by decide

theorem test_encode_words :
    encode (.absorb 0x61) = 0x3061 ∧ encode (.wrlane 16 5) = 0x8010 ∧ encode (.init 5) = 0x2005 := by decide

/-- R85: the examples of the assembler syntax, numbers in decimal. -/
theorem test_assembler_syntax :
    assembler (.init 1) = "INIT 1" ∧ assembler (.absorb 0x61) = "ABSORB 97" ∧
    assembler (.wrlane 3 8) = "WRLANE 3, 8" := by decide

/-- R86: the pseudo-commands expand to words of D-1. -/
theorem test_pseudo_commands :
    absorbs "ab" = [.command 0x3061 0, .command 0x3062 0] ∧
    hashCommands 1 [0x61] 1 =
      [.command 0x2001 0, .command 0x3061 0, .command 0x4000 0, .command 0x5000 0] := by decide

/-! ## Functions -/

/-- R100. -/
theorem test_rotl64 :
    rotl64 0x8000000000000001 1 = 0x0000000000000003 ∧
    rotl64 0x0123456789ABCDEF 0 = 0x0123456789ABCDEF ∧
    rotl64 0x0123456789ABCDEF 63 = 0x8091A2B3C4D5E6F7 := by decide

/-- R31: the table is the generating rule evaluated. -/
theorem test_round_constants_by_rule :
    ((List.finRange 24).all fun i => roundConstant i == rcGenerated i.val) = true := by decide +kernel

/-- R32: the table is the walk evaluated. -/
theorem test_rho_by_walk :
    ((List.range 24).all fun t =>
      rhoOffset (rhoWalk t).1 (rhoWalk t).2 == rhoWalkOffset t) = true := by decide +kernel

/-- R52. -/
theorem test_byte_view :
    memRead (lanesWith [(16, 0x8877665544332211)]) 135 = 0x88 ∧
    memRead (lanesWith [(5, 0x8877665544332211)]) 40 = 0x11 := by decide +kernel

/-- R102, second example. -/
theorem test_theta :
    theta (lanesWith [(13, 0x8000000000000000)]) =
      lanesOf [0, 0, 1, 0, 0x8000000000000000, 0, 0, 1, 0, 0x8000000000000000,
        0, 0, 1, 0x8000000000000000, 0x8000000000000000, 0, 0, 1, 0, 0x8000000000000000,
        0, 0, 1, 0, 0x8000000000000000] := by decide +kernel

/-- R103. -/
theorem test_rho :
    rho (lanesWith [(0, 1), (1, 1), (2, 1), (6, 0x8000000000000001)]) =
      lanesWith [(0, 1), (1, 2), (2, 0x4000000000000000), (6, 0x0000180000000000)] := by decide +kernel

/-- V-P5, Pi(S0). -/
theorem test_pi :
    pi s0 = lanesOf [1, 7, 13, 19, 25, 4, 10, 11, 17, 23, 2, 8, 14, 20, 21, 5, 6, 12, 18, 24,
      3, 9, 15, 16, 22] := by decide +kernel

/-- V-P5, Chi(S0). -/
theorem test_chi :
    chi s0 = lanesOf [0, 6, 2, 4, 7, 0x0E, 6, 0x0A, 0x0D, 0x0B, 0x0A, 0x0E, 0x0C, 0x0E, 0x0B,
      0x12, 0x10, 0x16, 0x13, 0x15, 0x14, 0x1E, 0x16, 0x1C, 0x1B] := by decide +kernel

/-- R106. -/
theorem test_iota :
    lane (iota (lanesWith [(0, 0xFFFFFFFFFFFFFFFF)]) 23) 0 = 0x7FFFFFFF7FFF7FF7 ∧
    lane (iota (lanesWith [(1, 3)]) 1) 1 = 3 := by decide +kernel

/-- V-P1: lanes 0, 1, 5 and 24. -/
theorem test_keccakP_of_zero :
    (fun A => [lane A 0, lane A 1, lane A 5, lane A 24]) (keccakP zeroLanes) =
      [0xF1258F7940E1DDE7, 0x84D5CCF933C0478A, 0xFF97A42D7F8E6FD4, 0xEAF1FF7B5CECA249] := by
  decide +kernel

/-- R146 and R151. -/
theorem test_padding :
    padBlock [0x61] 4 .ordinary = [0x61, 0x06, 0, 0x80] ∧
    padBlock [1, 2] 4 .extendable = [1, 2, 0x1F, 0x80] ∧
    padBlock [1, 2, 3] 4 .ordinary = [1, 2, 3, 0x86] ∧
    padXor zeroLanes 166 168 .extendable = lanesWith [(20, 0x801F000000000000)] ∧
    padXor zeroLanes 135 136 .ordinary = lanesWith [(16, 0x8600000000000000)] := by decide +kernel

/-- R131, and the hex rendering of R18. -/
theorem test_squeeze_block :
    hexRender (squeezeBlock (lanesWith [(0, 0x66D71EBFF8C6FFA7)]) 4) =
      ['a', '7', 'f', 'f', 'c', '6', 'f', '8'] := by decide +kernel

/-- R156: SHA3-256 of the empty message, its first eight bytes (vector A1). -/
theorem test_digest_of_the_empty_message :
    (digest .sha3_256 [] 32).map (List.take 8) =
      some [0xA7, 0xFF, 0xC6, 0xF8, 0xBF, 0x1E, 0xD7, 0x66] := by decide +kernel

/-! ## Commands: the cells of D-3, and R81, R221 to R224 -/

theorem test_status_reads : shows 0x0000 5 stateS = some (⟨0x100112, 0⟩, 0x100112, 0x7524A0FBF24B0880) := by
  decide +kernel

/-- D-4: DONE. -/
theorem test_status_done : statusWord stateDone = 0x02002016 := by decide +kernel

theorem test_clear_wipes : shows 0x1000 5 stateE = some (⟨0, 0⟩, 0, 0) := by decide +kernel
theorem test_init_starts : shows 0x2002 5 stateE = some (⟨0, 0⟩, 0x21, 0) := by decide +kernel
theorem test_init_6_faults : shows 0x2006 5 stateA = some (⟨0, 1⟩, 0x10113, 0x61) := by decide +kernel
theorem test_absorb_xors : shows 0x3062 5 stateA = some (⟨0, 0⟩, 0x211, 0x6261) := by decide +kernel
theorem test_absorb_in_squeeze_faults :
    shows 0x3062 5 stateS = some (⟨0, 3⟩, 0x130113, 0x7524A0FBF24B0880) := by decide +kernel
theorem test_final_pads_and_permutes :
    shows 0x4000 5 stateA = some (⟨0, 0⟩, 0x12, 0x7524A0FBF24B0880) := by decide +kernel
theorem test_final_in_idle_faults : shows 0x4000 5 stateI = some (⟨0, 3⟩, 0x30003, 0) := by decide +kernel
theorem test_squeeze_reads_the_next_byte :
    shows 0x5000 5 stateS = some (⟨0x08, 0⟩, 0x200212, 0x7524A0FBF24B0880) := by decide +kernel
theorem test_squeeze_past_the_digest_faults :
    shows 0x5000 5 stateDone = some (⟨0, 2⟩, 0x2022013, 0) := by decide +kernel
theorem test_permute_in_idle : shows 0x6000 5 stateI = some (⟨0, 0⟩, 0, 0xF1258F7940E1DDE7) := by
  decide +kernel
theorem test_permute_in_absorb_faults : shows 0x6000 5 stateA = some (⟨0, 3⟩, 0x30113, 0x61) := by
  decide +kernel
theorem test_rdlane_in_error : shows 0x7000 5 stateE = some (⟨0x61, 0⟩, 0x40113, 0x61) := by decide +kernel
theorem test_wrlane_in_idle : shows 0x8000 5 stateI = some (⟨0, 0⟩, 0, 5) := by decide +kernel
theorem test_wrlane_in_error_keeps_err : shows 0x8000 5 stateE = some (⟨0, 3⟩, 0x40113, 0x61) := by
  decide +kernel
theorem test_illegal_word : shows 0x9000 5 stateS = some (⟨0, 4⟩, 0x140113, 0x7524A0FBF24B0880) := by
  decide +kernel

/-- D-5: INIT 7 with RSV = 1 reports ERR_ILLEGAL, not ERR_VARIANT; 0x5001 past the digest, too. -/
theorem test_priority :
    shows 0x2107 0 stateI = some (⟨0, 4⟩, 0x40003, 0) ∧
    shows 0x5001 0 stateDone = some (⟨0, 4⟩, 0x2042013, 0) := by decide +kernel

/-- The first step after reset with a word placed runs exactly that word, for a row of each kind. -/
theorem test_step_runs_the_word :
    step (State.reset.withFetchWord 16 0x2005) = exec (.init 5) State.reset ∧
    step (State.reset.withFetchWord 16 0x8018) = exec (.wrlane 24 0) State.reset ∧
    step (State.reset.withFetchWord 16 0x5000) = .next (State.reset.afterFault 3) := ⟨rfl, rfl, rfl⟩

/-! ## Witnesses: states and operands that meet the hypotheses of the statements -/

theorem witness_DecodeInvertsEncode :
    (Instr.wrlane 24 3).wellFormed = true ∧ decode 0x8018 3 = .ok (.wrlane 24 3) := by decide

theorem witness_WordsAreTheCommandsOfTheTable : 6 ≤ (6 : BitVec 3).toNat ∧ 6 ≤ (7 : BitVec 3).toNat := by
  decide

theorem witness_WriteDatumIsIgnoredByAllButWrlane :
    (0x7000 : BitVec 16).extractLsb' 12 4 ≠ 0x8#4 ∧ (0x9000 : BitVec 16).extractLsb' 12 4 ≠ 0x8#4 := by decide

theorem witness_IllegalWordsRaiseErrIllegal : ∃ e, decode 0x7019 0 = .error e := ⟨.laneIndexHigh, by decide⟩

/-- One state for each clause: a legal word, an illegal word, reset, a wait, and nothing pending. -/
theorem witness_StepRunsTheDecodedCommand :
    (∃ s : State, s.pending = [.command 0x2001 0] ∧ decode 0x2001 0 = .ok (.init 1)) ∧
    (∃ s : State, s.pending = [.command 0x9000 0] ∧ decode 0x9000 0 = .error .reservedOpcode) ∧
    (∃ s : State, s.pending = [.reset]) ∧ (∃ s : State, s.pending = [.wait]) ∧
    (∃ s : State, s.pending = []) :=
  ⟨⟨{ stateE with pending := [.command 0x2001 0] }, rfl, by decide⟩,
   ⟨{ stateE with pending := [.command 0x9000 0] }, rfl, by decide⟩,
   ⟨{ stateA with pending := [.reset] }, rfl⟩, ⟨{ stateA with pending := [.wait] }, rfl⟩, ⟨stateA, rfl⟩⟩

theorem witness_ServingIsRunningTheStep :
    ∃ t rs, serve [.command 0x3062 0, .wait] { stateA with pending := [] } = some (t, rs) := ⟨_, _, rfl⟩

theorem witness_ResponsesDependOnTheEngineAlone :
    stateA.sameEngine { stateA with rsp := some ⟨7, 0⟩, pending := [.reset] } ∧
    ∃ t rs, serve [.command 0x3062 0, .wait] stateA = some (t, rs) :=
  ⟨⟨rfl, rfl, rfl, rfl, rfl, rfl⟩, _, _, rfl⟩

/-- Each clause: the model stops at the first position past the byte space, in both phases. -/
theorem witness_StopsOnlyWhereNoByteIs :
    (∃ s : State, s.phase = .absorb ∧ 200 ≤ s.pos.toNat ∧ exec (.absorb 0) s = .fault .noSuchByte) ∧
    (∃ s : State, s.phase = .squeeze ∧ 200 ≤ s.pos.toNat ∧ dlen s.variant ≠ some s.outcnt.toNat ∧
      exec .squeeze s = .fault .noSuchByte) :=
  ⟨⟨{ stateA with pos := 200 }, by decide, by decide, rfl⟩,
   ⟨{ stateS with pos := 200 }, by decide, by decide, by decide, rfl⟩⟩

/-- StatusShowsTheControlRegisters, ClearGivesTheResetState, InitStartsAComputation: illegal words of their opcodes, a variant's code, and a code of no variant. -/
theorem witness_of_the_control_statements :
    ((0x0F00 : BitVec 16).extractLsb' 12 4 = 0x0#4 ∧ (0x0F00 : BitVec 16) ≠ 0x0000) ∧
    ((0x1001 : BitVec 16).extractLsb' 12 4 = 0x1#4 ∧ (0x1001 : BitVec 16) ≠ 0x1000) ∧
    ((0x2008 : BitVec 16).extractLsb' 12 4 = 0x2#4 ∧ (0x2008 : BitVec 16).extractLsb' 3 5 ≠ 0x0#5) ∧
    (5 : BitVec 3).toNat < 6 ∧ 6 ≤ (6 : BitVec 3).toNat := by decide

/-- R180 and R182: SHA3-256 and SHAKE256 have one rate and one capacity, and differ in DOMAIN and DLEN. -/
theorem test_variant_table :
    (rate .sha3_256, cap .sha3_256, domain .sha3_256, dlen .sha3_256) = (136, 64, .ordinary, some 32) ∧
    (rate .shake256, cap .shake256, domain .shake256, dlen .shake256) = (136, 64, .extendable, none) := by
  decide

/-- Each clause: another phase; a block not filled, at the first and the last position before it; a block
filled. -/
theorem witness_AbsorbXorsTheByteAtPos :
    ((0x3100 : BitVec 16).extractLsb' 12 4 = 0x3#4 ∧ (0x3100 : BitVec 16).extractLsb' 8 4 ≠ 0x0#4) ∧
    stateI.phase ≠ .absorb ∧
    (∃ s : State, s.phase = .absorb ∧ s.pos.toNat < 200 ∧ s.pos.toNat + 1 ≠ rate s.variant) ∧
    (∃ s : State, s.phase = .absorb ∧ s.pos.toNat < 200 ∧ s.pos.toNat + 2 = rate s.variant) ∧
    (∃ s : State, s.phase = .absorb ∧ s.pos.toNat < 200 ∧ s.pos.toNat + 1 = rate s.variant) :=
  ⟨by decide, by decide, ⟨{ stateA with pos := 0 }, by decide⟩, ⟨{ stateA with pos := 134 }, by decide⟩,
   ⟨{ stateA with pos := 135 }, by decide⟩⟩

/-- Each clause: another phase; the digest delivered; a byte in the block; the block used up. -/
theorem witness_SqueezeReturnsTheByteAtPos :
    ((0x5001 : BitVec 16).extractLsb' 12 4 = 0x5#4 ∧ (0x5001 : BitVec 16) ≠ 0x5000) ∧
    stateA.phase ≠ .squeeze ∧
    (stateDone.phase = .squeeze ∧ dlen stateDone.variant = some stateDone.outcnt.toNat) ∧
    (∃ (s : State) (p : Fin 200), s.phase = .squeeze ∧ dlen s.variant ≠ some s.outcnt.toNat ∧
      p.val = s.pos.toNat ∧ s.pos.toNat ≠ rate s.variant) ∧
    (∃ s : State, s.phase = .squeeze ∧ dlen s.variant ≠ some s.outcnt.toNat ∧
      s.pos.toNat = rate s.variant) :=
  ⟨by decide, by decide, by decide, ⟨stateS, 1, by decide⟩,
   ⟨{ stateS with variant := .shake128, pos := 168, outcnt := 0 }, by decide⟩⟩

/-- Each clause: another phase; one byte free, more than one byte free, in both domains. -/
theorem witness_FinalPadsPermutesAndSwitches :
    ((0x4001 : BitVec 16).extractLsb' 12 4 = 0x4#4 ∧ (0x4001 : BitVec 16) ≠ 0x4000) ∧
    stateS.phase ≠ .absorb ∧
    (∃ s : State, s.phase = .absorb ∧ s.pos.toNat < 200 ∧ rate s.variant = s.pos.toNat + 1) ∧
    (∃ s : State, s.phase = .absorb ∧ s.pos.toNat < 200 ∧ rate s.variant ≠ s.pos.toNat + 1 ∧
      domain s.variant = .extendable) :=
  ⟨by decide, by decide, ⟨{ stateA with pos := 135 }, by decide⟩,
   ⟨{ stateA with variant := .shake128, pos := 0 }, by decide⟩⟩

theorem witness_PermuteAppliesKeccakP :
    ((0x6F00 : BitVec 16).extractLsb' 12 4 = 0x6#4 ∧ (0x6F00 : BitVec 16) ≠ 0x6000) ∧
    stateI.phase = .idle ∧ stateE.phase ≠ .idle := by decide

/-- RdlaneReturnsTheLane and WrlaneWritesTheLane: the first and the last lane, and the indices that name none, in the phases of each clause. -/
theorem witness_of_the_lane_statements :
    ((0x7019 : BitVec 16).extractLsb' 12 4 = 0x7#4 ∧ 25 ≤ ((0x7019 : BitVec 16).extractLsb' 0 5).toNat) ∧
    ((0x8020 : BitVec 16).extractLsb' 12 4 = 0x8#4 ∧ (0x8020 : BitVec 16).extractLsb' 5 3 ≠ 0x0#3) ∧
    (24 : BitVec 5).toNat ≤ 24 ∧ (24 : BitVec 5).toNat = (4 : Fin 5).val + 5 * (4 : Fin 5).val ∧
    (0 : BitVec 5).toNat = (0 : Fin 5).val + 5 * (0 : Fin 5).val ∧
    25 ≤ (25 : BitVec 5).toNat ∧ stateI.phase = .idle ∧ stateA.phase ≠ .idle := by decide

/-- Every command succeeds somewhere; ABSORB and SQUEEZE at a position that is not the block's end, and at
addresses beside the one stored to. -/
theorem witness_CommandsChangeOnlyWhatTheyWrite :
    (∃ t, exec .status stateE = .next t ∧ t.succeeded) ∧
    (∃ t, exec (.rdlane 24) stateE = .next t ∧ t.succeeded) ∧
    (∃ t, exec .clear stateE = .next t ∧ t.succeeded) ∧
    (∃ t, exec (.init 4) stateE = .next t ∧ t.succeeded) ∧
    (∃ t, exec (.absorb 1) stateA = .next t ∧ t.succeeded) ∧
    stateA.pos.toNat + 1 ≠ rate stateA.variant ∧ (0 : Fin 200).val ≠ stateA.pos.toNat ∧
    (∃ t, exec .final stateA = .next t ∧ t.succeeded) ∧
    (∃ t, exec .squeeze stateS = .next t ∧ t.succeeded) ∧ stateS.pos.toNat ≠ rate stateS.variant ∧
    (∃ t, exec .permute stateI = .next t ∧ t.succeeded) ∧
    (∃ t, exec (.wrlane 24 1) stateI = .next t ∧ t.succeeded) ∧
    (191 : Fin 200).val / 8 ≠ (24 : BitVec 5).toNat :=
  ⟨⟨_, rfl, _, rfl⟩, ⟨_, rfl, _, rfl⟩, ⟨_, rfl, _, rfl⟩, ⟨_, rfl, _, rfl⟩, ⟨_, rfl, _, rfl⟩, by decide,
   by decide, ⟨_, rfl, _, rfl⟩, ⟨_, rfl, _, rfl⟩, by decide, ⟨_, rfl, _, rfl⟩, ⟨_, rfl, _, rfl⟩, by decide⟩

/-- Each clause: VARIANT, PHASE (by FINAL and by a fault), POS, OUTCNT and ERR change. -/
theorem witness_RegistersChangeOnlyByTheirWriters :
    (∃ t, transact 0x2004 0 stateA = .next t ∧ t.variant ≠ stateA.variant) ∧
    (∃ t, transact 0x4000 0 stateA = .next t ∧ t.phase ≠ stateA.phase) ∧
    (∃ t, transact 0x9000 0 stateA = .next t ∧ t.phase ≠ stateA.phase) ∧
    (∃ t, transact 0x3000 0 stateA = .next t ∧ t.pos ≠ stateA.pos) ∧
    (∃ t, transact 0x5000 0 stateS = .next t ∧ t.outcnt ≠ stateS.outcnt) ∧
    (∃ t, transact 0x4000 0 stateI = .next t ∧ t.err ≠ stateI.err) :=
  ⟨⟨_, rfl, by decide⟩, ⟨_, rfl, by decide⟩, ⟨_, rfl, by decide⟩, ⟨_, rfl, by decide⟩, ⟨_, rfl, by decide⟩,
   ⟨_, rfl, by decide⟩⟩

theorem witness_FaultsChangeOnlyPhaseAndErr :
    ∃ t r, transact 0x9000 0 stateS = .next t ∧ t.rsp = some r ∧ r.rerr ≠ 0 := ⟨_, _, rfl, rfl, by decide⟩

/-- No cause, and each of the four causes. -/
theorem witness_ReportedFaultIsTheFirstThatApplies :
    reportedCode 0x0000 0 stateE = 0 ∧ reportedCode 0x2107 0 stateE = 4 ∧
    reportedCode 0x2007 0 stateE = 1 ∧ reportedCode 0x5000 0 stateE = 3 ∧
    reportedCode 0x5000 0 stateDone = 2 ∧
    ∃ t, transact 0x5000 0 stateDone = .next t := ⟨rfl, rfl, rfl, rfl, rfl, _, rfl⟩

theorem witness_FirstFaultIsKept :
    ∃ t r, stateE.phase = .error ∧ transact 0x5000 0 stateE = .next t ∧ t.rsp = some r ∧ r.rerr ≠ 0 :=
  ⟨_, _, rfl, rfl, rfl, by decide⟩

/-- SQUEEZE within a block and at its end, where it permutes first. -/
theorem witness_ResponsesOfTheCommands :
    ((∃ t, exec .squeeze stateS = .next t) ∧ stateS.pos.toNat ≠ rate stateS.variant) ∧
    (∃ s : State, s.pos.toNat = rate s.variant ∧ ∃ t, exec .squeeze s = .next t) :=
  ⟨⟨⟨_, rfl⟩, by decide⟩, { stateS with variant := .shake128, pos := 168, outcnt := 0 }, by decide, _, rfl⟩

/-- A legal word, an illegal word, FINAL into SQUEEZE, and INIT out of it. -/
theorem witness_PhaseMachine :
    (∃ t, decode 0x7000 0 = .ok (.rdlane 0) ∧ transact 0x7000 0 stateE = .next t) ∧
    (∃ t, decode 0x9000 0 = .error .reservedOpcode ∧ transact 0x9000 0 stateA = .next t) ∧
    (∃ t, handleEvent .reset stateE = .next t) ∧
    (∃ t, transact 0x4000 0 stateA = .next t ∧ stateA.phase ≠ .squeeze ∧ t.phase = .squeeze) ∧
    (∃ t, transact 0x2001 0 stateS = .next t ∧ stateS.phase = .squeeze ∧ t.phase = .absorb) :=
  ⟨⟨_, by decide, rfl⟩, ⟨_, by decide, rfl⟩, ⟨_, rfl⟩, ⟨_, rfl, by decide, rfl⟩, ⟨_, rfl, by decide, rfl⟩⟩

/-- Out of ERROR by INIT, CLEAR and reset, and staying there by an INIT that faults. -/
theorem witness_ErrorPhaseIsLeftInThreeWays :
    stateE.phase = .error ∧
    (∃ t, handleEvent (.command (0x2000 ||| (5 : BitVec 3).setWidth 16) 0) stateE = .next t ∧
      (5 : BitVec 3).toNat < 6) ∧
    (∃ t, handleEvent (.command 0x1000 0) stateE = .next t ∧ t.phase ≠ .error) ∧
    (∃ t, handleEvent .reset stateE = .next t) ∧
    (∃ t, handleEvent (.command 0x2006 0) stateE = .next t ∧ t.phase = .error) :=
  ⟨rfl, ⟨_, rfl, by decide⟩, ⟨_, rfl, by decide⟩, ⟨_, rfl⟩, ⟨_, rfl, rfl⟩⟩

theorem witness_NoOutputAfterAFault :
    stateE.phase = .error ∧
    (∀ e ∈ [HostEvent.command 0x5000 0, .command 0x2006 0, .wait],
      e ≠ .reset ∧ (∀ d, e ≠ .command 0x1000 d) ∧
      (∀ (v : BitVec 3) d, v.toNat < 6 → e ≠ .command (0x2000 ||| v.setWidth 16) d)) ∧
    decode 0x5000 0 = .ok .squeeze := by
  have h : ∀ v : BitVec 3, v.toNat < 6 →
      (0x5000 : BitVec 16) ≠ 0x2000 ||| v.setWidth 16 ∧ (0x2006 : BitVec 16) ≠ 0x2000 ||| v.setWidth 16 := by
    decide
  refine ⟨rfl, ?_, by decide⟩
  intro e he
  simp only [List.mem_cons, List.not_mem_nil, or_false] at he
  rcases he with rfl | rfl | rfl
  · exact ⟨by decide, fun d hd => by injection hd with hc; exact absurd hc (by decide),
      fun v d hv hd => by injection hd with hc; exact (h v hv).1 hc⟩
  · exact ⟨by decide, fun d hd => by injection hd with hc; exact absurd hc (by decide),
      fun v d hv hd => by injection hd with hc; exact (h v hv).2 hc⟩
  · exact ⟨by decide, fun d hd => (by injection hd), fun v d hv hd => (by injection hd)⟩

theorem witness_ClearCannotBeToldFromReset :
    ∃ t t' u rs, transact 0x1000 0 stateE = .next t ∧ handleEvent .reset stateS = .next t' ∧
      serve [.command 0x0000 0] t = some (u, rs) := ⟨_, _, _, _, rfl, rfl, rfl⟩

/-- Also of EveryCommandIsAnswered. A state in each phase meets the invariant, and steps from there. -/
theorem witness_StepKeepsTheInvariant :
    stateI.Inv ∧ stateA.Inv ∧ stateS.Inv ∧ stateDone.Inv ∧ stateE.Inv ∧
    ∃ t, step { stateDone with pending := [.command 0x5000 0] } = .next t :=
  ⟨by decide, by decide, by decide, by decide, by decide, _, rfl⟩

/-- Byte 199, the last: column 4, row 4; and the eight bytes of lane 24. -/
theorem witness_ByteViewOfTheLanes :
    (4 : Fin 5).val = (199 : Fin 200).val / 8 % 5 ∧ (4 : Fin 5).val = (199 : Fin 200).val / 40 ∧
    (∃ S : Fin 8 → Byte, ∀ (k : Fin 8) (p : Fin 200), p.val = 8 * (24 : Fin 25).val + k.val →
      S k = memRead s0 p) := by
  refine ⟨by decide, by decide,
    fun k => memRead s0 ⟨192 + k.val, by omega⟩, fun k p h => congrArg (memRead s0) (Fin.ext ?_)⟩
  exact h.symm

theorem witness_BytesDetermineTheLanes : ∃ A B : Lanes, ∀ p, memRead A p = memRead B p :=
  ⟨s0, s0, fun _ => rfl⟩

theorem witness_RotationMovesBits :
    63 ≤ 63 ∧ ((0 : Nat) = 0 ∧ 0 ≤ 63) ∧ 0 < 1 := by decide

/-- The column parities and masks exist for every array; the zero and the all-ones arrays. -/
theorem witness_ThetaXorsTheColumnParities :
    (∃ C D : Fin 5 → Lane,
      (∀ x, C x = laneAt s0 x 0 ^^^ laneAt s0 x 1 ^^^ laneAt s0 x 2 ^^^ laneAt s0 x 3 ^^^ laneAt s0 x 4) ∧
      (∀ x x₁ x₄ : Fin 5, x₄.val = (x.val + 4) % 5 → x₁.val = (x.val + 1) % 5 →
        D x = C x₄ ^^^ rotl64 (C x₁) 1)) ∧
    (∀ x y, laneAt zeroLanes x y = 0) ∧
    (∀ x y, laneAt (ofXY fun _ _ => BitVec.allOnes 64) x y = BitVec.allOnes 64) := by
  refine ⟨⟨columnParity s0, thetaMask s0, fun _ => rfl, fun x x₁ x₄ h₄ h₁ => ?_⟩, by decide, by decide⟩
  rw [show x₄ = x + 4 from Fin.ext h₄, show x₁ = x + 1 from Fin.ext h₁]
  rfl

/-- PiMovesTheLanes and RhoAndPiFuse: the two position sums. -/
theorem witness_of_the_lane_moves :
    (2 : Fin 5).val = ((4 : Fin 5).val + 3 * (1 : Fin 5).val) % 5 ∧
    (2 : Fin 5).val = (2 * (0 : Fin 5).val + 3 * (4 : Fin 5).val) % 5 := by decide

theorem witness_ChiMixesTheRows :
    ((0 : Fin 5).val = ((4 : Fin 5).val + 1) % 5 ∧ (1 : Fin 5).val = ((4 : Fin 5).val + 2) % 5) ∧
    (∀ x, laneAt zeroLanes x 3 = 0) ∧
    (∀ x, laneAt (ofXY fun _ _ => BitVec.allOnes 64) x 3 = BitVec.allOnes 64) := by decide

theorem witness_PermutationIsTheRoundsInOrder :
    ∃ run : Nat → Lanes, run 0 = s0 ∧
      ∀ (n : Nat) (h : n < 24), run (n + 1) = rnd (run n) ⟨n, h⟩ :=
  ⟨fun n => Nat.rec s0 (fun k A => if h : k < 24 then rnd A ⟨k, h⟩ else A) n, rfl,
   fun n h => by simp [h]⟩

/-- PadBlockBytes and PaddingByXorIsAbsorbingThePadBlock: both cases of the padding, at the edges of their ranges. -/
theorem witness_of_the_padding_statements :
    ([] : List Byte).length < 136 ∧ (List.replicate 135 (1 : Byte)).length < 136 ∧
    136 - (List.replicate 135 (1 : Byte)).length = 1 ∧ 136 ≤ 200 := by simp

/-- AbsorbBlockXorsByteByByte and SqueezeBlockReadsInOrder, at the ends of their ranges. -/
theorem witness_of_the_block_statements :
    (List.replicate 136 (1 : Byte)).length ≤ 136 ∧ 200 ≤ 200 ∧ (199 : Fin 200).val < 200 := by
  simp

/-- A block not full, and a full one. -/
theorem witness_AbsorbingByBytesIsAbsorbBlock :
    ∃ s : State, s.phase = .absorb ∧ s.pos = 0 ∧ (List.replicate 71 (1 : Byte)).length ≤ rate s.variant ∧
      (List.replicate 72 (1 : Byte)).length = rate s.variant :=
  ⟨{ stateA with variant := .sha3_512, pos := 0 }, by decide⟩

/-- SqueezingByBytesIsSqueezeBlocks and OutputLengthPolicy: an XOF variant, and a fixed variant with the longest output it has. -/
theorem witness_of_the_squeezing_statements :
    (∃ s : State, s.phase = .squeeze ∧ s.pos = 0 ∧ s.outcnt = 0 ∧ dlen s.variant = none) ∧
    (∃ s : State, s.phase = .squeeze ∧ s.pos = 0 ∧ s.outcnt = 0 ∧ dlen s.variant = some 64 ∧ 64 ≤ 64) :=
  ⟨⟨{ stateS with variant := .shake256, pos := 0, outcnt := 0 }, by decide⟩,
   ⟨{ stateS with variant := .sha3_512, pos := 0, outcnt := 0 }, by decide⟩⟩

theorem witness_SpongeOutput :
    1 ≤ 168 ∧ 168 ≤ 200 ∧ (167 : Fin 200).val = 335 % 168 ∧ 335 < 336 := by decide

/-- Also of StateAfterTheMessage. A message with STATUS, RDLANE and a wait in between. -/
theorem witness_CommandsComputeTheDigest :
    variantOfCode 1 = some .sha3_256 ∧ (∀ k, dlen .sha3_256 = some k → 1 ≤ k) ∧
    ([.command 0x2001 0, .command 0x0000 0, .command 0x3061 0, .wait, .command 0x7018 0, .command 0x4000 0,
      .command 0x5000 0] : List HostEvent).filter (fun e => !isObserver e) = hashCommands 1 [0x61] 1 :=
  ⟨rfl, fun k h => by simp only [dlen, Option.some.injEq] at h; omega, by decide⟩

/-- The clause on DONE: a whole fixed digest. -/
theorem witness_CommandsComputeTheDigest_fixed :
    variantOfCode 0 = some .sha3_224 ∧ (∀ k, dlen .sha3_224 = some k → 28 ≤ k) ∧
    (hashCommands 0 [0x61] 28).filter (fun e => !isObserver e) = hashCommands 0 [0x61] 28 ∧
    dlen .sha3_224 = some 28 :=
  ⟨rfl, fun k h => by simp only [dlen, Option.some.injEq] at h; omega, by decide +kernel, rfl⟩

/-- An XOF variant, whose output may have any length, none at all among them. -/
theorem witness_CommandsComputeTheDigest_xof :
    variantOfCode 4 = some .shake128 ∧ dlen .shake128 = none ∧
    (∀ k, dlen .shake128 = some k → 5 ≤ k) ∧ (∀ k, dlen .shake128 = some k → 0 ≤ k) ∧
    (HostEvent.wait :: hashCommands 4 [] 5).filter (fun e => !isObserver e) = hashCommands 4 [] 5 :=
  ⟨rfl, rfl, fun k h => by simp [dlen] at h, fun k h => by simp [dlen] at h, by decide +kernel⟩

/-- A configuration of two engines whose commands take three cycles. -/
def cfg : Config where
  nInst := 2
  nInst_pos := by decide
  latency := fun _ _ _ => 3
  latency_pos := fun _ _ _ => by decide

/-- Cycles with and without a command offered, and with reset. -/
def offer (cmd : BitVec 16) : PortIn := ⟨false, true, cmd, 0⟩

theorem witness_HandshakeTakesOneCommandAtATime :
    (offer 0x3000).rst = false ∧ (offer 0x3000).cmdValid = true ∧
    (∀ i ∈ [offer 1, offer 2, offer 3], i.rst = false) ∧
    (∃ t, transact (offer 0x3000).cmd (offer 0x3000).wdata stateA = .next t) ∧
    [offer 1, offer 2, offer 3].length = cfg.latency (offer 0x3000).cmd (offer 0x3000).wdata stateA ∧
    (⟨false, false, 0, 0⟩ : PortIn).cmdValid = false :=
  ⟨rfl, rfl, by decide, ⟨_, rfl⟩, rfl, rfl⟩

theorem witness_ResetAbandonsTheCommandInFlight :
    (⟨true, true, 0x3000, 0⟩ : PortIn).rst = true ∧ (offer 0x3000).rst = false := ⟨rfl, rfl⟩

theorem witness_ClockedPortRefinesTheStep :
    ∃ c outs, (∀ i ∈ [offer 0x3000, offer 1, offer 2, offer 3], i.rst = false) ∧
      runClock cfg [offer 0x3000, offer 1, offer 2, offer 3] ⟨stateA, .ready⟩ = some (c, outs) ∧
      c.flight = .ready := ⟨_, _, by decide, rfl, rfl⟩

theorem witness_EnginesAreIndependent :
    ∃ (sys a b : Engines cfg) (k l : Fin cfg.nInst), k ≠ l ∧
      sys.event k (.command 0x2001 0) = .next a ∧ a.event l (.command 0x9000 0) = .next b :=
  ⟨#v[stateI, stateE], _, _, ⟨0, by decide⟩, ⟨1, by decide⟩, by decide, rfl, rfl⟩

end Sys2Proof.Tests
end

namespace Sys2Proof.Machine

/-! ## ROTL64 (00_scope.md R10) -/

@[simp] theorem rotl64_zero (v : Lane) : rotl64 v 0 = v := rfl

theorem rotl64_of_pos (v : Lane) {n : Nat} (hn : 0 < n) :
    rotl64 v n = v <<< n ||| v >>> (64 - n) :=
  if_neg hn.ne'

/-- R10's rotation is the library's, so its bit lemmas apply. -/
theorem rotl64_eq_rotateLeft (v : Lane) {n : Nat} (hn : n < 64) : rotl64 v n = v.rotateLeft n := by
  rcases n.eq_zero_or_pos with rfl | hpos
  · simp [BitVec.rotateLeft_def, BitVec.ushiftRight_eq_zero]
  · rw [rotl64_of_pos v hpos, BitVec.rotateLeft_def, Nat.mod_eq_of_lt hn]

theorem toNat_rotl64_of_pos (v : Lane) {n : Nat} (hn : 0 < n) :
    (rotl64 v n).toNat = (v.toNat * 2 ^ n % 2 ^ 64) ||| (v.toNat / 2 ^ (64 - n)) := by
  rw [rotl64_of_pos v hn, BitVec.toNat_or, BitVec.toNat_shiftLeft, BitVec.toNat_ushiftRight,
    Nat.shiftLeft_eq, Nat.shiftRight_eq_div_pow]

/-- The two cases are a bit that stays within the top bit, 63, and one that wraps round to the low end. -/
theorem getLsbD_rotl64 (v : Lane) {n i : Nat} (hn : n < 64) (hi : i < 64) :
    (rotl64 v n).getLsbD ((i + n) % 64) = v.getLsbD i := by
  rw [rotl64_eq_rotateLeft v hn, BitVec.getLsbD_rotateLeft_of_le hn]
  rcases Nat.lt_or_ge (i + n) 64 with hstay | hwrap
  · have hpos : (i + n) % 64 = i + n := Nat.mod_eq_of_lt hstay
    simp [hpos, hstay]
  · have hpos : (i + n) % 64 = i + n - 64 := by omega
    have hlow : i + n - 64 < n := by omega
    have hback : 64 - n + (i + n - 64) = i := by omega
    simp [hpos, hlow, hback]

/-- Settles O36: R10's formula is the definition's own shift expression, and the bit law is the library's rotation. -/
theorem rotationMovesBits : Obligations.RotationMovesBits := by
  intro v n hn
  have hlt : n < 64 := Nat.lt_succ_of_le hn
  exact ⟨fun h => h ▸ rotl64_zero v, toNat_rotl64_of_pos v, fun _ hi => getLsbD_rotl64 v hlt hi⟩

end Sys2Proof.Machine

namespace Sys2Proof.Machine

/-! ## The reset state (10_state.md R40, 70_reset_and_hazards.md R250) -/

@[simp] theorem reset_lanes : State.reset.lanes = zeroLanes := rfl
@[simp] theorem reset_variant : State.reset.variant = .sha3_224 := rfl
@[simp] theorem reset_phase : State.reset.phase = .idle := rfl
@[simp] theorem reset_pos : State.reset.pos = 0 := rfl
@[simp] theorem reset_outcnt : State.reset.outcnt = 0 := rfl
@[simp] theorem reset_err : State.reset.err = 0 := rfl
@[simp] theorem reset_rsp : State.reset.rsp = none := rfl

/-- Reset keeps nothing of the state but the host's inputs still to come. -/
theorem takeReset_eq (s : State) : takeReset s = { State.reset with pending := s.pending } := rfl

theorem handleEvent_reset (s : State) : handleEvent .reset s = .next (takeReset s) := rfl

/-- DONE is 0 outside SQUEEZE (R29). -/
theorem done_of_phase_ne_squeeze {s : State} (h : s.phase ≠ .squeeze) : s.done = false := by
  simp [State.done, h]

@[simp] theorem reset_done : State.reset.done = false :=
  done_of_phase_ne_squeeze (by simp)

/-- Every field that R29 packs into the status word is 0 after reset. -/
theorem statusWord_reset : statusWord State.reset = 0 := by
  simp [statusWord, phaseCode, variantCode]

/-- Settles O28: reset is `takeReset`, whose result is the reset state whatever the engine held; the values of R40
are that state's fields. -/
theorem resetGivesTheResetValues : Obligations.ResetGivesTheResetValues := by
  have hevent (s : State) : handleEvent .reset s = .next { State.reset with pending := s.pending } := by
    rw [handleEvent_reset, takeReset_eq]
  have hlanes (x y : Fin 5) : laneAt State.reset.lanes x y = 0 := by
    rw [reset_lanes, laneAt_zeroLanes]
  exact ⟨hevent, hlanes, rfl, rfl, reset_pos, reset_outcnt, reset_err, reset_done,
    statusWord_reset, reset_rsp⟩

end Sys2Proof.Machine

namespace Sys2Proof.Machine

/-! ## The port does not enter an answer (20_memory.md R63) -/

/-- Where the first outcome is a next state, so is the second, with the same response and the same architectural
part; what the two keep pending may differ. -/
def AnswersAlike (o o' : Host.Outcome State Fault Refusal) : Prop :=
  ∀ t, o = .next t → ∃ t', o' = .next t' ∧ t'.rsp = t.rsp ∧ t.sameEngine t'

theorem answersAlike_next {t t' : State} (hrsp : t'.rsp = t.rsp) (h : t.sameEngine t') :
    AnswersAlike (.next t) (.next t') := by
  rintro _ ⟨⟩
  exact ⟨t', rfl, hrsp, h⟩

section
variable {s s' : State}

theorem answersAlike_respond (v : Lane) (h : s.sameEngine s') :
    AnswersAlike (respond v s) (respond v s') :=
  answersAlike_next rfl h

theorem answersAlike_raise (c : FaultCode) (h : s.sameEngine s') :
    AnswersAlike (raise c s) (raise c s') := by
  obtain ⟨hlanes, hvariant, hphase, hpos, houtcnt, herr⟩ := h
  exact answersAlike_next rfl ⟨hlanes, hvariant, rfl, hpos, houtcnt, by simp [hphase, herr]⟩

theorem answersAlike_inPhase (p : Phase) (h : s.sameEngine s')
    {k k' : Host.Outcome State Fault Refusal} (hk : AnswersAlike k k') :
    AnswersAlike (inPhase p s k) (inPhase p s' k') := by
  have ⟨_, _, hphase, _⟩ := h
  unfold inPhase
  rw [hphase]
  split
  · exact hk
  · exact answersAlike_raise _ h

theorem answersAlike_withLane (i : BitVec 5) (h : s.sameEngine s')
    {k k' : Fin 25 → Host.Outcome State Fault Refusal} (hk : ∀ j, AnswersAlike (k j) (k' j)) :
    AnswersAlike (withLane i s k) (withLane i s' k') := by
  unfold withLane
  split
  · exact hk _
  · exact answersAlike_raise _ h

theorem answersAlike_withByte (p : Nat) {k k' : Fin 200 → Host.Outcome State Fault Refusal}
    (hk : ∀ q, AnswersAlike (k q) (k' q)) : AnswersAlike (withByte p k) (withByte p k') := by
  unfold withByte
  split
  · exact hk _
  · rintro _ ⟨⟩

end

/-! The named updates of the state, from states with the same architectural part. -/

/-- CLEAR and reset forget the whole architectural part. -/
theorem sameEngine_cleared (s s' : State) : s.cleared.sameEngine s'.cleared :=
  ⟨rfl, rfl, rfl, rfl, rfl, rfl⟩

/-- So does INIT, but for the variant it sets. -/
theorem sameEngine_started (s s' : State) (w : Variant) : (s.started w).sameEngine (s'.started w) :=
  ⟨rfl, rfl, rfl, rfl, rfl, rfl⟩

section
variable {s s' : State} (h : s.sameEngine s')
include h

theorem statusWord_congr : statusWord s' = statusWord s := by
  obtain ⟨-, hvariant, hphase, hpos, houtcnt, herr⟩ := h
  simp only [statusWord, State.done, State.delivered, hvariant, hphase, hpos, houtcnt, herr]

theorem delivered_congr : s'.delivered = s.delivered := by
  obtain ⟨-, hvariant, -, -, houtcnt, -⟩ := h
  simp only [State.delivered, hvariant, houtcnt]

theorem sameEngine_withLanes (A : Lanes) :
    State.sameEngine { s with lanes := A } { s' with lanes := A } :=
  ⟨rfl, h.2⟩

theorem sameEngine_absorbed (b : Byte) : (s.absorbed b).sameEngine (s'.absorbed b) := by
  obtain ⟨hlanes, hvariant, hphase, hpos, houtcnt, herr⟩ := h
  simp only [State.absorbed, hlanes, hvariant, hpos]
  split <;> exact ⟨rfl, rfl, hphase, rfl, houtcnt, herr⟩

theorem sameEngine_finished : s.finished.sameEngine s'.finished := by
  obtain ⟨hlanes, hvariant, -, hpos, -, herr⟩ := h
  exact ⟨by simp [hlanes, hvariant, hpos], hvariant, rfl, rfl, rfl, herr⟩

theorem sameEngine_refilled : s.refilled.sameEngine s'.refilled := by
  obtain ⟨hlanes, hvariant, hphase, hpos, houtcnt, herr⟩ := h
  simp only [State.refilled, hlanes, hvariant, hpos]
  split
  · exact ⟨rfl, rfl, hphase, rfl, houtcnt, herr⟩
  · exact ⟨hlanes, hvariant, hphase, hpos, houtcnt, herr⟩

theorem sameEngine_squeezed : s.squeezed.sameEngine s'.squeezed := by
  obtain ⟨hlanes, hvariant, hphase, hpos, houtcnt, herr⟩ := h
  exact ⟨hlanes, hvariant, hphase, by simp [hpos], by simp [hvariant, houtcnt], herr⟩

/-- The block is refilled alike, and the byte given is read from the refilled lanes. -/
theorem answersAlike_execSqueeze : AnswersAlike (execSqueeze s) (execSqueeze s') := by
  have hrefilled := sameEngine_refilled h
  have ⟨hlanes, _, _, hpos, _⟩ := hrefilled
  apply answersAlike_inPhase _ h
  rw [delivered_congr h, hlanes, hpos]
  split
  · exact answersAlike_raise _ h
  · exact answersAlike_withByte _ fun _ => answersAlike_respond _ (sameEngine_squeezed hrefilled)

theorem answersAlike_exec (i : Instr) : AnswersAlike (exec i s) (exec i s') := by
  have ⟨hlanes, _, _, hpos, _⟩ := h
  cases i with
  | status =>
    simp only [exec, execStatus, statusWord_congr h]
    exact answersAlike_respond _ h
  | clear => exact answersAlike_respond _ (sameEngine_cleared s s')
  | init v =>
    simp only [exec, execInit]
    split
    · exact answersAlike_raise _ h
    · exact answersAlike_respond _ (sameEngine_started s s' _)
  | absorb b =>
    simp only [exec, execAbsorb, hpos]
    exact answersAlike_inPhase _ h <| answersAlike_withByte _ fun _ =>
      answersAlike_respond _ (sameEngine_absorbed h b)
  | final =>
    simp only [exec, execFinal, hpos]
    exact answersAlike_inPhase _ h <| answersAlike_withByte _ fun _ =>
      answersAlike_respond _ (sameEngine_finished h)
  | squeeze => exact answersAlike_execSqueeze h
  | permute =>
    simp only [exec, execPermute, hlanes]
    exact answersAlike_inPhase _ h <| answersAlike_respond _ (sameEngine_withLanes h _)
  | rdlane i =>
    simp only [exec, execRdlane, hlanes]
    exact answersAlike_withLane _ h fun _ => answersAlike_respond _ h
  | wrlane i d =>
    simp only [exec, execWrlane, hlanes]
    exact answersAlike_withLane _ h fun _ => answersAlike_inPhase _ h <|
      answersAlike_respond _ (sameEngine_withLanes h _)

theorem answersAlike_transact (cmd : BitVec 16) (d : Lane) :
    AnswersAlike (transact cmd d s) (transact cmd d s') := by
  unfold transact
  split
  · exact answersAlike_raise _ h
  · exact answersAlike_exec h _

theorem answersAlike_handleEvent (e : HostEvent) :
    AnswersAlike (handleEvent e s) (handleEvent e s') := by
  cases e with
  | command cmd d => exact answersAlike_transact h cmd d
  | wait => exact answersAlike_next rfl h
  | reset => exact answersAlike_next rfl (sameEngine_cleared s s')

end

/-! ## Serving a list of events (20_memory.md R62) -/

/-- A nonempty list is served exactly when its first event answers and the rest is served from there. -/
theorem serve_cons_eq_some_iff {e : HostEvent} {es : List HostEvent} {s u : State}
    {rs : List (Option Response)} :
    serve (e :: es) s = some (u, rs) ↔
      ∃ t rs', handleEvent e s = .next t ∧ serve es t = some (u, rs') ∧ rs = t.rsp :: rs' := by
  rw [serve]
  cases handleEvent e s <;> simp [eq_comm]

/-- Settles O8, by induction on the events: each is answered alike from states with the same architectural part, and
leaves such states. -/
theorem responsesDependOnTheEngineAlone : Obligations.ResponsesDependOnTheEngineAlone := by
  intro es
  induction es with
  | nil =>
    rintro s s' _ _ h ⟨⟩
    exact ⟨s', rfl, h⟩
  | cons e es ih =>
    intro s s' u rs h hserve
    obtain ⟨t, rs', hevent, hrest, rfl⟩ := serve_cons_eq_some_iff.mp hserve
    obtain ⟨t', hevent', hrsp, ht⟩ := answersAlike_handleEvent h e t hevent
    obtain ⟨u', hrest', hu⟩ := ih t t' u rs' ht hrest
    exact ⟨u', serve_cons_eq_some_iff.mpr ⟨t', rs', hevent', hrest', by rw [hrsp]⟩, hu⟩

end Sys2Proof.Machine

namespace Sys2Proof.Machine

/-! ## The byte view of the lane array (20_memory.md R51) -/

/-- The lane at column `x`, row `y` holds byte `p`. -/
theorem laneIndex_eq_laneOfByte {p : Fin 200} {x y : Fin 5} (hx : x.val = p.val / 8 % 5)
    (hy : y.val = p.val / 40) : laneIndex x y = laneOfByte p := by
  apply Fin.ext
  simp only [laneIndex, laneOfByte]
  omega

theorem eq_laneOfByte_iff (j : Fin 25) (p : Fin 200) : j = laneOfByte p ↔ j.val = p.val / 8 :=
  Fin.ext_iff

theorem memRead_eq_extractLsb' (A : Lanes) (p : Fin 200) :
    memRead A p = (lane A (laneOfByte p)).extractLsb' (8 * (p.val % 8)) 8 :=
  BitVec.setWidth_ushiftRight_eq_extractLsb

/-- Byte `k` of lane `i` is the byte at position `8·i + k`. -/
theorem memRead_of_val_eq (A : Lanes) {p : Fin 200} {i : Fin 25} {k : Fin 8}
    (hp : p.val = 8 * i.val + k.val) : memRead A p = (lane A i).extractLsb' (8 * k.val) 8 := by
  have hlane : i = laneOfByte p := (eq_laneOfByte_iff i p).mpr (by omega)
  have hbyte : p.val % 8 = k.val := by omega
  rw [memRead_eq_extractLsb', ← hlane, hbyte]

/-- A lane is its eight bytes, the lowest one least significant. -/
theorem append_bytes_eq_self (v : Lane) :
    v.extractLsb' 56 8 ++ v.extractLsb' 48 8 ++ v.extractLsb' 40 8 ++ v.extractLsb' 32 8 ++
      v.extractLsb' 24 8 ++ v.extractLsb' 16 8 ++ v.extractLsb' 8 8 ++ v.extractLsb' 0 8 = v := by
  simp (disch := decide) only [BitVec.extractLsb'_append_extractLsb'_eq_extractLsb']
  exact BitVec.extractLsb'_eq_self

theorem lane_memWrite (A : Lanes) (p : Fin 200) (v : Byte) (j : Fin 25) :
    lane (memWrite A p v) j =
      if j.val = p.val / 8 then
        (lane A j &&& ~~~((0xFF : Lane) <<< byteShift p.val)) ||| (v.setWidth 64 <<< byteShift p.val)
      else lane A j := by
  simp only [memWrite, lane_setLane, ← eq_laneOfByte_iff]
  split
  case isTrue h => rw [h]
  case isFalse => rfl

theorem lane_memXor (A : Lanes) (p : Fin 200) (v : Byte) (j : Fin 25) :
    lane (memXor A p.val v) j =
      if j.val = p.val / 8 then lane A j ^^^ (v.setWidth 64 <<< byteShift p.val)
      else lane A j := by
  simp only [memXor, p.isLt, dite_true, lane_setLane, ← eq_laneOfByte_iff]
  split
  case isTrue h => rw [h]
  case isFalse => rfl

/-- Settles O33: a byte read is a slice of its lane, the eight slices of a lane join to the lane, and both ways of
changing a byte write one lane. -/
theorem byteViewOfTheLanes : Obligations.ByteViewOfTheLanes := by
  refine ⟨fun A p x y hx hy => ?_, fun A i S hS => ?_, lane_memWrite, lane_memXor⟩
  · rw [memRead_eq_extractLsb', ← laneIndex_eq_laneOfByte hx hy, lane_laneIndex]
  · have hbyte (k : Fin 8) : S k = (lane A i).extractLsb' (8 * k.val) 8 := by
      have hp : (⟨8 * i.val + k.val, by omega⟩ : Fin 200).val = 8 * i.val + k.val := rfl
      rw [hS k _ hp, memRead_of_val_eq A hp]
    simp only [hbyte]
    exact (append_bytes_eq_self (lane A i)).symm

end Sys2Proof.Machine

namespace Sys2Proof.Machine

/-! ## Several engines (20_memory.md R68, 70_reset_and_hazards.md R232) -/

section
variable {cfg : Config}

/-- An event at engine `k` answers exactly when that engine's own event does, and then only entry `k` is new. -/
theorem event_eq_next_iff {sys a : Engines cfg} {k : Fin cfg.nInst} {e : HostEvent} :
    sys.event k e = .next a ↔ ∃ t, handleEvent e sys[k] = .next t ∧ a = sys.set k t := by
  unfold Engines.event
  cases handleEvent e sys[k] <;> simp [eq_comm]

theorem getElem_set_of_ne (sys : Engines cfg) {k l : Fin cfg.nInst} (hkl : k ≠ l) (t : State) :
    (sys.set k t)[l] = sys[l] :=
  Vector.getElem_set_ne _ _ (Fin.val_ne_of_ne hkl)

end

/-- Settles O60: each event reads and writes its own engine's entry only, and writes to two entries commute. -/
theorem enginesAreIndependent : Obligations.EnginesAreIndependent := by
  intro cfg sys a b k l e f hkl ha
  obtain ⟨t, ht, rfl⟩ := event_eq_next_iff.mp ha
  refine ⟨getElem_set_of_ne sys hkl t, fun hb => ?_⟩
  obtain ⟨u, hu, rfl⟩ := event_eq_next_iff.mp hb
  rw [getElem_set_of_ne sys hkl t] at hu
  refine ⟨sys.set l u, event_eq_next_iff.mpr ⟨u, hu, rfl⟩, event_eq_next_iff.mpr ⟨t, ?_, ?_⟩⟩
  · rw [getElem_set_of_ne sys hkl.symm u, ht]
  · exact Vector.set_comm t u (Fin.val_ne_of_ne hkl)

end Sys2Proof.Machine

namespace Sys2Proof

/-! ## The fields of a command word (30_encoding.md R77) -/

theorem toNat_opcField (cmd : BitVec 16) : (opcField cmd).toNat = cmd.toNat / 4096 := by
  rw [opcField, BitVec.extractLsb'_toNat, Nat.shiftRight_eq_div_pow]
  omega

theorem toNat_rsvField (cmd : BitVec 16) : (rsvField cmd).toNat = cmd.toNat / 256 % 16 := by
  rw [rsvField, BitVec.extractLsb'_toNat, Nat.shiftRight_eq_div_pow]

theorem toNat_argField (cmd : BitVec 16) : (argField cmd).toNat = cmd.toNat % 256 := by
  rw [argField, BitVec.extractLsb'_toNat, Nat.shiftRight_zero]

/-- The three fields cover the word. -/
theorem eq_of_fields_eq {cmd cmd' : BitVec 16} (hopc : opcField cmd = opcField cmd')
    (hrsv : rsvField cmd = rsvField cmd') (harg : argField cmd = argField cmd') : cmd = cmd' := by
  have hopc' := congrArg BitVec.toNat hopc
  have hrsv' := congrArg BitVec.toNat hrsv
  have harg' := congrArg BitVec.toNat harg
  rw [toNat_opcField, toNat_opcField] at hopc'
  rw [toNat_rsvField, toNat_rsvField] at hrsv'
  rw [toNat_argField, toNat_argField] at harg'
  apply BitVec.eq_of_toNat_eq
  omega

/-- The word of a command is its opcode with its operand, RSV being 0. -/
theorem encode_eq_iff {i : Instr} {cmd : BitVec 16} :
    encode i = cmd ↔ opcField cmd = opcodeOf i ∧ rsvField cmd = 0 ∧ argField cmd = argOf i := by
  constructor
  · rintro rfl
    exact ⟨opcField_encode i, rsvField_encode i, argField_encode i⟩
  · rintro ⟨hopc, hrsv, harg⟩
    exact eq_of_fields_eq (by rw [opcField_encode, hopc]) (by rw [rsvField_encode, hrsv])
      (by rw [argField_encode, harg])

/-! ## The operand decoders (30_encoding.md R79) -/

theorem decodeNoOperand_eq_ok_iff {arg : Byte} {i j : Instr} :
    decodeNoOperand arg i = .ok j ↔ arg = 0 ∧ i = j := by
  unfold decodeNoOperand
  split <;> simp_all

/-- A byte is a `k`-bit field extended with zeros when its high bits are 0 and its low bits are the field. -/
theorem eq_setWidth_iff {k : Nat} {arg : Byte} {v : BitVec k} (hk : k ≤ 8) :
    arg = v.setWidth 8 ↔ arg.extractLsb' k (8 - k) = 0 ∧ arg.extractLsb' 0 k = v := by
  constructor
  · rintro rfl
    constructor
    · ext n hn
      simp
    · ext n hn
      simp [show n < 8 by omega, hn]
  · rintro ⟨hhigh, rfl⟩
    ext n hn
    by_cases hlow : n < k
    · simp [hlow, hn]
    · have hbit := congrArg (·.getLsbD (n - k)) hhigh
      simpa [hlow, hn, show n - k < 8 - k by omega, show k + (n - k) = n by omega,
        BitVec.getLsbD_eq_getElem] using hbit

theorem extractLsb'_high_eq_zero_iff {k : Nat} {arg : Byte} (hk : k ≤ 8) :
    arg.extractLsb' k (8 - k) = 0 ↔ arg.toNat / 2 ^ k = 0 := by
  have hlt : arg.toNat / 2 ^ k < 2 ^ (8 - k) := by
    rw [Nat.div_lt_iff_lt_mul (Nat.two_pow_pos k), ← Nat.pow_add, Nat.sub_add_cancel hk]
    exact arg.isLt
  rw [← BitVec.toNat_inj, BitVec.extractLsb'_toNat, Nat.shiftRight_eq_div_pow, Nat.mod_eq_of_lt hlt]
  rfl

theorem decodeInit_eq_ok_iff {arg : Byte} {j : Instr} :
    decodeInit arg = .ok j ↔ ∃ v : BitVec 3, arg = v.setWidth 8 ∧ .init v = j := by
  unfold decodeInit
  split <;> simp_all [eq_setWidth_iff]

theorem decodeLane_eq_ok_iff {arg : Byte} {k : BitVec 5 → Instr} {j : Instr} :
    decodeLane arg k = .ok j ↔ ∃ i : BitVec 5, arg = i.setWidth 8 ∧ laneIndexOk i = true ∧ k i = j := by
  unfold decodeLane
  split
  · simp_all [eq_setWidth_iff]
  · split <;> simp_all [eq_setWidth_iff]

/-! ## Decoding inverts encoding (30_encoding.md R80) -/

/-- The command with `d` for its write datum, where it has one (R79). -/
def Instr.withDatum (d : Lane) (i : Instr) : Instr :=
  match i with
  | .wrlane k _ => .wrlane k d
  | .status => .status
  | .clear => .clear
  | .init v => .init v
  | .absorb b => .absorb b
  | .final => .final
  | .squeeze => .squeeze
  | .permute => .permute
  | .rdlane k => .rdlane k

theorem decode_encode {i : Instr} (h : i.wellFormed = true) (d : Lane) :
    decode (encode i) d = .ok (i.withDatum d) := by
  simp only [decode, rsvField_encode, opcField_encode, argField_encode, ne_eq, not_true_eq_false, if_false]
  cases i with
  | init v => exact decodeInit_eq_ok_iff.mpr ⟨v, rfl, rfl⟩
  | rdlane k => exact decodeLane_eq_ok_iff.mpr ⟨k, rfl, h, rfl⟩
  | wrlane k e => exact decodeLane_eq_ok_iff.mpr ⟨k, rfl, h, rfl⟩
  | status | clear | absorb b | final | squeeze | permute => rfl

theorem of_decode_eq_ok {cmd : BitVec 16} {d : Lane} {i : Instr} (h : decode cmd d = .ok i) :
    i.wellFormed = true ∧ encode i = cmd ∧ i.withDatum d = i := by
  rw [encode_eq_iff]
  unfold decode at h
  split at h
  case isTrue => cases h
  case isFalse hrsv =>
  rw [not_not] at hrsv
  have hopcode {n : BitVec 4} (hn : (opcField cmd).toNat = n.toNat) : opcField cmd = n :=
    BitVec.eq_of_toNat_eq hn
  generalize hopc : (opcField cmd).toNat = opc at h
  match opc with
  | 0 | 1 | 4 | 5 | 6 =>
    obtain ⟨harg, rfl⟩ := decodeNoOperand_eq_ok_iff.mp h
    exact ⟨rfl, ⟨hopcode hopc, hrsv, harg⟩, rfl⟩
  | 2 =>
    obtain ⟨v, harg, rfl⟩ := decodeInit_eq_ok_iff.mp h
    exact ⟨rfl, ⟨hopcode hopc, hrsv, harg⟩, rfl⟩
  | 3 =>
    cases h
    exact ⟨rfl, ⟨hopcode hopc, hrsv, rfl⟩, rfl⟩
  | 7 | 8 =>
    obtain ⟨k, harg, hk, rfl⟩ := decodeLane_eq_ok_iff.mp h
    exact ⟨hk, ⟨hopcode hopc, hrsv, harg⟩, rfl⟩
  | n + 9 => cases h

/-- A word is a command's exactly when it is that command's encoding, with the write datum where it takes one. -/
theorem decode_eq_ok_iff {cmd : BitVec 16} {d : Lane} {i : Instr} :
    decode cmd d = .ok i ↔ i.wellFormed = true ∧ encode i = cmd ∧ i.withDatum d = i := by
  refine ⟨of_decode_eq_ok, ?_⟩
  rintro ⟨hwf, rfl, hd⟩
  rw [decode_encode hwf, hd]

/-! ## The rows of the opcode map (30_encoding.md R80) -/

/-- A pattern with a `k`-bit operand, under the mask that leaves the `k` low bits free. -/
theorem or_setWidth_eq_iff {k w : Nat} {p m cmd : BitVec w} {v : BitVec k}
    (hm : m = BitVec.allOnes w <<< k) (hp : p &&& m = p) (hk : k ≤ w) :
    p ||| v.setWidth w = cmd ↔ cmd &&& m = p ∧ v = cmd.extractLsb' 0 k := by
  have hmask (n : Nat) (hn : n < w) : m[n] = !decide (n < k) := by
    simp [hm]
  have hplow (n : Nat) (hn : n < w) (hlow : n < k) : p[n] = false := by
    rw [← hp]
    simp [hmask n hn, hlow]
  constructor
  · rintro rfl
    constructor
    · ext n hn
      by_cases hlow : n < k
      · simp [hmask n hn, hlow, hplow]
      · simp [hmask n hn, hlow, BitVec.getLsbD_of_ge v n (Nat.le_of_not_lt hlow)]
    · ext n hn
      have hnw : n < w := by omega
      simp [hn, hnw, hplow n hnw hn]
  · rintro ⟨hhigh, rfl⟩
    ext n hn
    by_cases hlow : n < k
    · simp [hlow, hplow n hn hlow, BitVec.getLsbD_eq_getElem hn]
    · rw [← hhigh]
      simp [hlow, hmask n hn]

/-- No word matches two patterns that differ under both masks. -/
theorem not_and_eq_of_ne {p q : BitVec 16 × BitVec 16} (h : p.1 &&& q.2 ≠ q.1 &&& p.2) (cmd : BitVec 16) :
    ¬(cmd &&& p.2 = p.1 ∧ cmd &&& q.2 = q.1) := by
  rintro ⟨hp, hq⟩
  apply h
  rw [← hp, ← hq, BitVec.and_assoc, BitVec.and_assoc, BitVec.and_comm p.2]

theorem encode_init (v : BitVec 3) : encode (.init v) = 0x2000 ||| v.setWidth 16 :=
  congrArg (0x2000 ||| ·) (BitVec.setWidth_setWidth (x := v) (by decide))

theorem encode_rdlane (i : BitVec 5) : encode (.rdlane i) = 0x7000 ||| i.setWidth 16 :=
  congrArg (0x7000 ||| ·) (BitVec.setWidth_setWidth (x := i) (by decide))

theorem encode_wrlane (i : BitVec 5) (d : Lane) : encode (.wrlane i d) = 0x8000 ||| i.setWidth 16 :=
  congrArg (0x8000 ||| ·) (BitVec.setWidth_setWidth (x := i) (by decide))

section
variable {cmd : BitVec 16} {d : Lane}

/-- The row of a command with one word, as each command without operand is, leaves no bit free. -/
theorem decode_eq_ok_iff_and_allOnes {i : Instr} (hwf : i.wellFormed = true) (hd : i.withDatum d = i) :
    decode cmd d = .ok i ↔ cmd &&& 0xFFFF = encode i := by
  rw [decode_eq_ok_iff, show (0xFFFF : BitVec 16) = BitVec.allOnes 16 from rfl, BitVec.and_allOnes]
  simp only [hwf, hd, true_and, and_true]
  exact eq_comm

theorem decode_eq_ok_status_iff : decode cmd d = .ok .status ↔ cmd &&& 0xFFFF = 0x0000 :=
  decode_eq_ok_iff_and_allOnes rfl rfl

theorem decode_eq_ok_clear_iff : decode cmd d = .ok .clear ↔ cmd &&& 0xFFFF = 0x1000 :=
  decode_eq_ok_iff_and_allOnes rfl rfl

theorem decode_eq_ok_final_iff : decode cmd d = .ok .final ↔ cmd &&& 0xFFFF = 0x4000 :=
  decode_eq_ok_iff_and_allOnes rfl rfl

theorem decode_eq_ok_squeeze_iff : decode cmd d = .ok .squeeze ↔ cmd &&& 0xFFFF = 0x5000 :=
  decode_eq_ok_iff_and_allOnes rfl rfl

theorem decode_eq_ok_permute_iff : decode cmd d = .ok .permute ↔ cmd &&& 0xFFFF = 0x6000 :=
  decode_eq_ok_iff_and_allOnes rfl rfl

theorem decode_eq_ok_init_iff {v : BitVec 3} :
    decode cmd d = .ok (.init v) ↔ cmd &&& 0xFFF8 = 0x2000 ∧ v = cmd.extractLsb' 0 3 := by
  rw [decode_eq_ok_iff, encode_init, or_setWidth_eq_iff (m := 0xFFF8) rfl rfl (by decide)]
  simp [Instr.wellFormed, Instr.withDatum]

theorem decode_eq_ok_absorb_iff {b : Byte} :
    decode cmd d = .ok (.absorb b) ↔ cmd &&& 0xFF00 = 0x3000 ∧ b = cmd.extractLsb' 0 8 := by
  rw [decode_eq_ok_iff, show encode (.absorb b) = 0x3000 ||| b.setWidth 16 from rfl,
    or_setWidth_eq_iff (m := 0xFF00) rfl rfl (by decide)]
  simp [Instr.wellFormed, Instr.withDatum]

theorem decode_eq_ok_rdlane_iff {i : BitVec 5} :
    decode cmd d = .ok (.rdlane i) ↔ cmd &&& 0xFFE0 = 0x7000 ∧ i = cmd.extractLsb' 0 5 ∧ i.toNat ≤ 24 := by
  rw [decode_eq_ok_iff, encode_rdlane, or_setWidth_eq_iff (m := 0xFFE0) rfl rfl (by decide)]
  simp only [Instr.wellFormed, Instr.withDatum, laneIndexOk, decide_eq_true_eq, and_true]
  tauto

theorem decode_eq_ok_wrlane_iff {i : BitVec 5} {e : Lane} :
    decode cmd d = .ok (.wrlane i e) ↔
      cmd &&& 0xFFE0 = 0x8000 ∧ i = cmd.extractLsb' 0 5 ∧ i.toNat ≤ 24 ∧ e = d := by
  rw [decode_eq_ok_iff, encode_wrlane, or_setWidth_eq_iff (m := 0xFFE0) rfl rfl (by decide)]
  simp only [Instr.wellFormed, Instr.withDatum, laneIndexOk, decide_eq_true_eq, Instr.wrlane.injEq, true_and]
  tauto

end

/-! ## The illegal words (30_encoding.md R81) -/

theorem exists_decodeNoOperand_eq_error_iff {arg : Byte} {i : Instr} :
    (∃ e, decodeNoOperand arg i = .error e) ↔ arg.toNat ≠ 0 := by
  unfold decodeNoOperand
  split <;> simp_all [BitVec.toNat_eq]

theorem exists_decodeInit_eq_error_iff {arg : Byte} :
    (∃ e, decodeInit arg = .error e) ↔ arg.toNat / 8 ≠ 0 := by
  have hhigh : arg.extractLsb' 3 5 = 0 ↔ arg.toNat / 8 = 0 := extractLsb'_high_eq_zero_iff (by decide)
  unfold decodeInit
  split <;> simp_all

theorem exists_decodeLane_eq_error_iff {arg : Byte} {k : BitVec 5 → Instr} :
    (∃ e, decodeLane arg k = .error e) ↔ arg.toNat / 32 ≠ 0 ∨ 25 ≤ arg.toNat % 32 := by
  have hhigh : arg.extractLsb' 5 3 = 0 ↔ arg.toNat / 32 = 0 := extractLsb'_high_eq_zero_iff (by decide)
  have hindex : laneIndexOk (arg.extractLsb' 0 5) = true ↔ ¬ 25 ≤ arg.toNat % 32 := by
    simp [laneIndexOk, BitVec.extractLsb'_toNat, Nat.lt_succ_iff]
  unfold decodeLane
  split
  · simp_all
  · split <;> simp_all

theorem exists_decode_eq_error_iff (cmd : BitVec 16) (d : Lane) :
    (∃ e, decode cmd d = .error e) ↔
      cmd.toNat / 256 % 16 ≠ 0 ∨ 9 ≤ cmd.toNat / 4096 ∨
      (cmd.toNat / 4096 ∈ [0, 1, 4, 5, 6] ∧ cmd.toNat % 256 ≠ 0) ∨
      (cmd.toNat / 4096 = 2 ∧ cmd.toNat % 256 / 8 ≠ 0) ∨
      (cmd.toNat / 4096 ∈ [7, 8] ∧ (cmd.toNat % 256 / 32 ≠ 0 ∨ 25 ≤ cmd.toNat % 256 % 32)) := by
  have hrsv : (rsvField cmd).toNat ≠ 0 ↔ rsvField cmd ≠ 0 := BitVec.toNat_ne_iff_ne (y := 0)
  rw [← toNat_argField, ← toNat_opcField, ← toNat_rsvField, hrsv]
  unfold decode
  split
  case isTrue h => exact ⟨fun _ => .inl h, fun _ => ⟨_, rfl⟩⟩
  case isFalse h =>
  rw [or_iff_right h]
  generalize (opcField cmd).toNat = opc
  match opc with
  | 0 | 1 | 4 | 5 | 6 => simp [exists_decodeNoOperand_eq_error_iff]
  | 2 => simp [exists_decodeInit_eq_error_iff]
  | 3 => simp
  | 7 | 8 => simp [exists_decodeLane_eq_error_iff]
  | n + 9 => simp

/-- A word is legal or illegal. -/
theorem not_exists_decode_eq_error_iff (cmd : BitVec 16) (d : Lane) :
    (¬∃ e, decode cmd d = .error e) ↔ ∃ i, decode cmd d = .ok i := by
  cases decode cmd d <;> simp

/-! ## The number of legal words (30_encoding.md R80) -/

/-- The legal words as numbers: per row of the opcode map, its first word and how many words it has. -/
def legalRanges : List (Nat × Nat) :=
  [(0x0000, 1), (0x1000, 1), (0x2000, 8), (0x3000, 256), (0x4000, 1), (0x5000, 1), (0x6000, 1),
    (0x7000, 25), (0x8000, 25)]

/-- The legal words as numbers, in order. -/
def legalNumbers : List Nat := legalRanges.flatMap fun r => List.range' r.1 r.2

theorem length_legalNumbers : legalNumbers.length = 319 := by
  simp [legalNumbers, legalRanges]

/-- Each range ends before the next begins. -/
theorem nodup_legalNumbers : legalNumbers.Nodup := by
  have hordered : legalRanges.Pairwise fun p q => p.1 + p.2 ≤ q.1 := by decide
  refine List.nodup_flatMap.mpr ⟨fun _ _ => List.nodup_range', hordered.imp fun {p q} hpq n hp hq => ?_⟩
  rw [List.mem_range'_1] at hp hq
  omega

theorem mem_legalNumbers_iff {n : Nat} :
    n ∈ legalNumbers ↔ ∃ r ∈ legalRanges, r.1 ≤ n ∧ n < r.1 + r.2 := by
  simp only [legalNumbers, List.mem_flatMap, List.mem_range'_1]

theorem exists_decode_eq_ok_iff (cmd : BitVec 16) (d : Lane) :
    (∃ i, decode cmd d = .ok i) ↔ cmd.toNat ∈ legalNumbers := by
  rw [← not_exists_decode_eq_error_iff, exists_decode_eq_error_iff, mem_legalNumbers_iff]
  simp only [legalRanges, List.mem_cons, List.not_mem_nil, or_false, exists_eq_or_imp, exists_eq_left]
  omega

theorem lt_of_mem_legalNumbers {n : Nat} (h : n ∈ legalNumbers) : n < 2 ^ 16 := by
  have hend : ∀ r ∈ legalRanges, r.1 + r.2 ≤ 2 ^ 16 := by decide
  obtain ⟨r, hr, -, hlt⟩ := mem_legalNumbers_iff.mp h
  exact hlt.trans_le (hend r hr)

theorem card_legal_words (d : Lane) : Nat.card {cmd : BitVec 16 // ∃ i, decode cmd d = .ok i} = 319 := by
  have himage : BitVec.toNat '' {cmd : BitVec 16 | ∃ i, decode cmd d = .ok i} = legalNumbers.toFinset := by
    ext n
    simp only [Set.mem_image, Set.mem_ofPred_eq, exists_decode_eq_ok_iff, List.coe_toFinset]
    constructor
    · rintro ⟨cmd, h, rfl⟩
      exact h
    · intro h
      have hn := BitVec.toNat_ofNatLT n (lt_of_mem_legalNumbers h)
      exact ⟨_, hn.symm ▸ h, hn⟩
  calc Nat.card {cmd : BitVec 16 // ∃ i, decode cmd d = .ok i}
      = {cmd : BitVec 16 | ∃ i, decode cmd d = .ok i}.ncard := rfl
    _ = (legalNumbers.toFinset : Set Nat).ncard := by
        rw [← himage, Set.ncard_image_of_injective _ fun _ _ => BitVec.eq_of_toNat_eq]
    _ = 319 := by
        rw [Set.ncard_coe_finset, List.toFinset_card_of_nodup nodup_legalNumbers, length_legalNumbers]

/-! ## The rows that accept a word (30_encoding.md R80) -/

theorem accepts_eq_true_iff (r : OpcodeRow) (cmd : BitVec 16) :
    r.accepts cmd = true ↔
      cmd &&& r.mask = r.pattern ∧ (r.laneOperand = true → (cmd.extractLsb' 0 5).toNat ≤ 24) := by
  cases h : r.laneOperand <;> simp [OpcodeRow.accepts, laneIndexOk, h]

/-- A command has one of nine forms. -/
theorem Instr.exists_iff {p : Instr → Prop} :
    (∃ i, p i) ↔ p .status ∨ p .clear ∨ (∃ v, p (.init v)) ∨ (∃ b, p (.absorb b)) ∨ p .final ∨
      p .squeeze ∨ p .permute ∨ (∃ i, p (.rdlane i)) ∨ ∃ i d, p (.wrlane i d) := by
  constructor
  · rintro ⟨i, h⟩
    cases i <;> grind
  · grind

theorem exists_decode_eq_ok_iff_accepts (cmd : BitVec 16) (d : Lane) :
    (∃ i, decode cmd d = .ok i) ↔ ∃ r ∈ opcodeRows, r.accepts cmd = true := by
  simp [Instr.exists_iff, accepts_eq_true_iff, opcodeRows, decode_eq_ok_status_iff, decode_eq_ok_clear_iff,
    decode_eq_ok_init_iff, decode_eq_ok_absorb_iff, decode_eq_ok_final_iff, decode_eq_ok_squeeze_iff,
    decode_eq_ok_permute_iff, decode_eq_ok_rdlane_iff, decode_eq_ok_wrlane_iff]

end Sys2Proof

namespace Sys2Proof.Machine

/-! ## Illegal words and invalid variants on the port (30_encoding.md R81, 44_variant.md R184) -/

theorem transact_of_illegal {cmd : BitVec 16} {d : Lane} {e : Illegal} (h : decode cmd d = .error e)
    (s : State) : transact cmd d s = .next (s.afterFault 4) := by
  simp only [transact, h, raise_eq]
  rfl

theorem transact_of_invalidVariant {cmd : BitVec 16} {d : Lane} {v : BitVec 3}
    (h : decode cmd d = .ok (.init v)) (hv : 6 ≤ v.toNat) (s : State) :
    transact cmd d s = .next (s.afterFault 1) := by
  simp only [transact, h, exec, execInit, (variantOfCode_eq_none v).mpr hv, raise_eq]
  rfl

/-- Settles O2: a word decodes to a command exactly when it is the command's encoding, and each row's pattern with its
operand is that encoding; the legal words are nine ranges of numbers. -/
theorem wordsAreTheCommandsOfTheTable : Obligations.WordsAreTheCommandsOfTheTable := by
  refine ⟨fun cmd d => ⟨decode_eq_ok_status_iff, decode_eq_ok_clear_iff,
    fun _ => decode_eq_ok_init_iff, fun _ => decode_eq_ok_absorb_iff, decode_eq_ok_final_iff,
    decode_eq_ok_squeeze_iff, decode_eq_ok_permute_iff, fun _ => decode_eq_ok_rdlane_iff,
    fun _ _ => decode_eq_ok_wrlane_iff⟩, ?_, card_legal_words 0, fun v hv d s => ?_⟩
  · exact List.Pairwise.imp not_and_eq_of_ne (by decide)
  · have hdecode : decode (0x2000 ||| v.setWidth 16) d = .ok (.init v) :=
      encode_init v ▸ decode_encode rfl d
    exact ⟨hdecode, transact_of_invalidVariant hdecode hv s⟩

/-- Settles O4: the clauses of R81 are read off the decoder, and a word matches a row exactly when it is legal. -/
theorem illegalWordsRaiseErrIllegal : Obligations.IllegalWordsRaiseErrIllegal := by
  refine ⟨fun cmd d => ⟨exists_decode_eq_error_iff cmd d, ?_⟩, fun cmd d s e h => transact_of_illegal h s,
    fun d s => ⟨rfl, transact_of_invalidVariant rfl (by decide) s, rfl,
      transact_of_invalidVariant rfl (by decide) s⟩⟩
  rw [← not_iff_not, not_exists_decode_eq_error_iff, exists_decode_eq_ok_iff_accepts]
  simp

end Sys2Proof.Machine

namespace Sys2Proof.Machine

/-! ## The signal-level handshake (30_encoding.md R76) -/

section
variable {cfg : Config} {i : PortIn}

theorem portOut_ready (hrst : i.rst = false) (s : State) : portOut i ⟨s, .ready⟩ = ⟨true, none⟩ := by
  simp [portOut, hrst]

theorem portOut_busy_zero (hrst : i.rst = false) (s : State) (r : Option Response) :
    portOut i ⟨s, .busy 0 r⟩ = ⟨false, r⟩ := by
  simp [portOut, hrst]

theorem portOut_busy_succ (hrst : i.rst = false) (s : State) (n : Nat) (r : Option Response) :
    portOut i ⟨s, .busy (n + 1) r⟩ = ⟨false, none⟩ := by
  simp [portOut, hrst]

theorem clockEdge_idle (hrst : i.rst = false) (hvalid : i.cmdValid = false) (s : State) :
    clockEdge cfg i ⟨s, .ready⟩ = .next ⟨s, .ready⟩ := by
  simp [clockEdge, hrst, hvalid]

theorem clockEdge_busy_zero (hrst : i.rst = false) (s : State) (r : Option Response) :
    clockEdge cfg i ⟨s, .busy 0 r⟩ = .next ⟨s, .ready⟩ := by
  simp [clockEdge, hrst]

theorem clockEdge_busy_succ (hrst : i.rst = false) (s : State) (n : Nat) (r : Option Response) :
    clockEdge cfg i ⟨s, .busy (n + 1) r⟩ = .next ⟨s, .busy n r⟩ := by
  simp [clockEdge, hrst]

theorem clockEdge_accept {s t : State} (hrst : i.rst = false) (hvalid : i.cmdValid = true)
    (h : transact i.cmd i.wdata s = .next t) :
    clockEdge cfg i ⟨s, .ready⟩ = .next ⟨t, .busy (cfg.latency i.cmd i.wdata s - 1) t.rsp⟩ := by
  simp [clockEdge, accept, hrst, hvalid, h]

theorem runClock_cons {c d : Clocked} (h : clockEdge cfg i c = .next d) (is : List PortIn) :
    runClock cfg (i :: is) c = (runClock cfg is d).map fun r => (r.1, portOut i c :: r.2) := by
  rw [runClock, h]

/-- A flight of `n + 1` cycles, whatever the host drives in them: the response comes in the last one, and the engine is
ready after it. -/
theorem runClock_busy (s : State) (r : Option Response) {n : Nat} {ins : List PortIn}
    (hrst : ∀ i ∈ ins, i.rst = false) (hlen : ins.length = n + 1) :
    runClock cfg ins ⟨s, .busy n r⟩ =
      some (⟨s, .ready⟩, List.replicate n ⟨false, none⟩ ++ [⟨false, r⟩]) := by
  induction n generalizing ins with
  | zero =>
    obtain ⟨i, rfl⟩ := List.length_eq_one_iff.mp hlen
    have hi : i.rst = false := hrst i List.mem_cons_self
    rw [runClock_cons (clockEdge_busy_zero hi s r), portOut_busy_zero hi]
    rfl
  | succ n ih =>
    obtain ⟨i, is, rfl⟩ := List.exists_cons_of_length_eq_add_one hlen
    obtain ⟨hi, his⟩ := List.forall_mem_cons.mp hrst
    rw [runClock_cons (clockEdge_busy_succ hi s n r), ih his (Nat.succ.inj hlen), portOut_busy_succ hi]
    rfl

end

/-- Settles O57: the cycle of acceptance starts a flight of LATENCY cycles, which ends ready. -/
theorem handshakeTakesOneCommandAtATime : Obligations.HandshakeTakesOneCommandAtATime := by
  refine ⟨fun cfg s t first ins hrst hvalid hins ht hlen => ?_, fun cfg s i hrst hvalid =>
    ⟨clockEdge_idle hrst hvalid s, portOut_ready hrst s⟩⟩
  have hpos : 1 ≤ ins.length := hlen ▸ cfg.latency_pos _ _ _
  rw [runClock_cons (clockEdge_accept hrst hvalid ht), ← hlen,
    runClock_busy t t.rsp hins (Nat.sub_add_cancel hpos).symm, portOut_ready hrst]
  rfl

/-! ## The response of a command (30_encoding.md R83) -/

theorem faultCode_toNat_le (c : FaultCode) : (faultCode c).toNat ≤ 4 := by cases c <;> decide

/-- Lane index `k` stands at column `k mod 5`, row `k div 5` (R21). -/
theorem columnOf_add_rowOf (k : Fin 25) : k.val = (columnOf k).val + 5 * (rowOf k).val :=
  (Nat.mod_add_div k.val 5).symm

/-- With the block used up, SQUEEZE reads the first byte of the permuted lanes (R133). -/
theorem memRead_refilled_of_eq {s : State} (h : s.pos.toNat = rate s.variant) {p : Fin 200}
    (hp : p.val = s.refilled.pos.toNat) :
    memRead s.refilled.lanes p = memRead (keccakP s.lanes) 0 := by
  rw [refilled_of_eq s h] at hp ⊢
  rw [show p = 0 from Fin.ext hp]

/-- Settles O24: a fault answers its code with datum 0; a command that completes answers `rerr = 0` with its datum. -/
theorem responsesOfTheCommands : Obligations.ResponsesOfTheCommands := by
  intro i s t h
  rcases exec_next h with ⟨c, rfl, -⟩ | hc
  · exact ⟨_, faulted_rsp s c, faultCode_toNat_le c, fun _ => rfl, fun h0 => absurd h0 (faultCode_ne_zero c)⟩
  obtain ⟨v, hv⟩ := completes_rsp hc
  have hdata {u : State} {x : Lane} (ht : t = u.answered x) : v = x := by
    subst ht
    cases hv
    rfl
  refine ⟨_, hv, Nat.zero_le 4, fun hne => absurd rfl hne, fun _ => ?_⟩
  cases i with
  | status => exact hdata hc
  | clear => exact hdata hc
  | init _ =>
    obtain ⟨_, -, ht⟩ := hc
    exact hdata ht
  | absorb _ =>
    obtain ⟨-, -, ht⟩ := hc
    exact hdata ht
  | final =>
    obtain ⟨-, -, ht⟩ := hc
    exact hdata ht
  | squeeze =>
    obtain ⟨-, -, p, hp, ht⟩ := hc
    obtain rfl := hdata ht
    dsimp only
    split
    case isTrue hfull => rw [memRead_refilled_of_eq hfull hp]
    case isFalse hfull =>
      rw [refilled_of_ne s hfull] at hp ⊢
      exact ⟨p, hp, rfl⟩
  | permute =>
    obtain ⟨-, ht⟩ := hc
    exact hdata ht
  | rdlane _ =>
    obtain ⟨k, hk, ht⟩ := hc
    exact ⟨columnOf k, rowOf k, hk ▸ columnOf_add_rowOf k, hdata ht⟩
  | wrlane _ _ =>
    obtain ⟨_, -, -, ht⟩ := hc
    exact hdata ht

end Sys2Proof.Machine

namespace Sys2Proof.Machine

/-! ## PERMUTE (40_permutation.md R111) -/

theorem exec_permute_of_idle {s : State} (h : s.phase = .idle) :
    exec .permute s = .next (State.answered { s with lanes := keccakP s.lanes } 0) :=
  if_pos h

theorem exec_permute_of_ne_idle {s : State} (h : s.phase ≠ .idle) :
    exec .permute s = .next (s.faulted .errSeq) :=
  if_neg h

theorem withDatum_encodeData (i : Instr) : i.withDatum (encodeData i) = i := by
  cases i <;> rfl

/-- What the host sends for a well-formed command runs that command. -/
theorem handleEvent_send {i : Instr} (h : i.wellFormed = true) (s : State) :
    handleEvent (send i) s = exec i s := by
  simp only [handleEvent, send, transact, decode_encode h, withDatum_encodeData]

theorem decode_permute (d : Lane) : decode 0x6000 d = .ok .permute :=
  decode_encode (i := .permute) rfl d

/-- With OPC 6, one word only has RSV and ARG 0. -/
theorem exists_decode_eq_error_of_permute_opcode {cmd : BitVec 16} (hopc : cmd.extractLsb' 12 4 = 0x6#4)
    (hne : cmd ≠ 0x6000) (d : Lane) : ∃ e, decode cmd d = .error e := by
  have hopc' : cmd.toNat / 4096 = 6 := by rw [← toNat_opcField, opcField, hopc]; rfl
  have hne' : cmd.toNat ≠ 0x6000 := fun h => hne (BitVec.eq_of_toNat_eq h)
  rw [exists_decode_eq_error_iff]
  by_cases hrsv : cmd.toNat / 256 % 16 = 0
  · have harg : cmd.toNat % 256 ≠ 0 := by omega
    exact .inr (.inr (.inl ⟨by simp [hopc'], harg⟩))
  · exact .inl hrsv

/-- In IDLE each PERMUTE completes and leaves IDLE, so the next one completes too. -/
theorem exists_serve_replicate_permute (n : Nat) {s : State} (h : s.phase = .idle) :
    ∃ t rs, serve (List.replicate n (send .permute)) s = some (t, rs) ∧
      State.sameEngine { s with lanes := keccakP^[n] s.lanes } t := by
  induction n generalizing s with
  | zero => exact ⟨s, [], rfl, rfl, rfl, rfl, rfl, rfl, rfl⟩
  | succ n ih =>
    have hevent := (handleEvent_send (i := .permute) rfl s).trans (exec_permute_of_idle h)
    obtain ⟨u, rs, hserve, hu⟩ := ih (s := State.answered { s with lanes := keccakP s.lanes } 0) h
    exact ⟨u, _, serve_cons_eq_some_iff.mpr ⟨_, rs, hevent, hserve, rfl⟩, hu⟩

/-- Settles O16: PERMUTE's word is the one legal word of its opcode, its phase check decides between completion and
ERR_SEQ, and completion keeps the engine in IDLE. -/
theorem permuteAppliesKeccakP : Obligations.PermuteAppliesKeccakP := by
  refine ⟨decode_permute, fun cmd d s hopc hne => ?_, fun s => ⟨exec_permute_of_idle, exec_permute_of_ne_idle⟩,
    fun n s => exists_serve_replicate_permute n⟩
  obtain ⟨e, he⟩ := exists_decode_eq_error_of_permute_opcode hopc hne d
  exact transact_of_illegal he s

end Sys2Proof.Machine

namespace Sys2Proof.Machine

/-! ## The lanes after each step mapping (40_permutation.md R102 to R106) -/

@[simp] theorem laneAt_theta (A : Lanes) (x y : Fin 5) :
    laneAt (theta A) x y = laneAt A x y ^^^ thetaMask A x := by
  rw [theta, laneAt_ofXY]

@[simp] theorem laneAt_rho (A : Lanes) (x y : Fin 5) :
    laneAt (rho A) x y = rotl64 (laneAt A x y) (rhoOffset x y) := by
  rw [rho, laneAt_ofXY]

@[simp] theorem laneAt_pi (A : Lanes) (x y : Fin 5) : laneAt (pi A) x y = laneAt A (x + 3 * y) x := by
  rw [pi, laneAt_ofXY]

@[simp] theorem laneAt_chi (A : Lanes) (x y : Fin 5) :
    laneAt (chi A) x y = laneAt A x y ^^^ (~~~(laneAt A (x + 1) y) &&& laneAt A (x + 2) y) := by
  rw [chi, laneAt_ofXY]

theorem laneIndex_eq_zero_iff (x y : Fin 5) : laneIndex x y = 0 ↔ x = 0 ∧ y = 0 := by
  simp only [laneIndex, Fin.ext_iff, Fin.val_zero]
  omega

/-- Settles O41: iota writes lane 0, the lane at (0, 0), with the old one XORed with the round constant. -/
theorem iotaAddsTheRoundConstant : Obligations.IotaAddsTheRoundConstant := by
  intro A ir x y
  simp only [iota, laneAt_setLane, laneIndex_eq_zero_iff]
  split
  case isTrue h =>
    obtain ⟨rfl, rfl⟩ := h
    rfl
  case isFalse => rfl

/-! ## Theta (40_permutation.md R102) -/

/-- An odd number of equal lanes has that lane as its parity. -/
theorem columnParity_of_forall_eq {A : Lanes} {x : Fin 5} {c : Lane} (h : ∀ y, laneAt A x y = c) :
    columnParity A x = c := by
  simp [columnParity, h]

/-- With every lane the same and every bit of it the same, the masks of the neighbours cancel. -/
theorem theta_eq_self {A : Lanes} {c : Lane} (hc : rotl64 c 1 = c) (h : ∀ x y, laneAt A x y = c) :
    theta A = A := by
  have hmask (x : Fin 5) : thetaMask A x = 0 := by
    rw [thetaMask, columnParity_of_forall_eq (h _), columnParity_of_forall_eq (h _), hc, BitVec.xor_self]
    rfl
  refine lanes_ext fun x y => ?_
  rw [laneAt_theta, hmask]
  exact BitVec.xor_zero

/-- Settles O37: the C and D of R102 are the parities and masks of the definition, and rotation keeps the all-zero and the
all-ones lane. -/
theorem thetaXorsTheColumnParities : Obligations.ThetaXorsTheColumnParities := by
  refine ⟨fun A C D hC hD x y => ?_, fun A => theta_eq_self (by decide), fun A => theta_eq_self (by decide)⟩
  have hmask : D x = thetaMask A x := by
    rw [hD x (x + 1) (x + 4) rfl rfl, hC, hC]
    rfl
  rw [laneAt_theta, hmask]

/-! ## Pi (40_permutation.md R104) -/

/-- Pi moves the lane at `(x, y)` to `(y, 2x + 3y)`, since `y + 3·(2x + 3y) = x` modulo 5. -/
theorem laneAt_pi_image (A : Lanes) (x y : Fin 5) : laneAt (pi A) y (2 * x + 3 * y) = laneAt A x y := by
  have hback : y + 3 * (2 * x + 3 * y) = x := by decide +revert
  rw [laneAt_pi, hback]

theorem pi_injective : Function.Injective pi := by
  intro A B h
  refine lanes_ext fun x y => ?_
  rw [← laneAt_pi_image A, h, laneAt_pi_image]

/-- The index that Pi reads at each lane index. -/
def piSource (i : Fin 25) : Fin 25 := laneIndex (columnOf i + 3 * rowOf i) (columnOf i)

theorem lane_pi (A : Lanes) (i : Fin 25) : lane (pi A) i = lane A (piSource i) := by
  rw [piSource, lane_laneIndex, ← laneAt_pi, lane]

/-- Settles O39: each lane of the result is one of the argument, and every lane of the argument is found in the result. -/
theorem piMovesTheLanes : Obligations.PiMovesTheLanes := by
  refine fun A => ⟨fun x y z hz => ?_, laneAt_pi A 0 0, fun B h => pi_injective h, fun i => ?_⟩
  · obtain rfl : z = x + 3 * y := Fin.ext (by simp [hz, Fin.val_add, Fin.val_mul])
    exact laneAt_pi A x y
  · rw [lane_pi]
    congr 1
    decide +revert

/-! ## Chi (40_permutation.md R105) -/

/-- In a row of equal lanes the AND term is 0. -/
theorem laneAt_chi_of_forall_eq {A : Lanes} {y : Fin 5} {c : Lane} (h : ∀ x, laneAt A x y = c) (x : Fin 5) :
    laneAt (chi A) x y = c := by
  simp [h]

/-- Settles O40: the bit law is the lane law read at one bit. -/
theorem chiMixesTheRows : Obligations.ChiMixesTheRows := by
  refine fun A => ⟨fun x x₁ x₂ y h₁ h₂ => ?_, fun y => laneAt_chi_of_forall_eq, fun y => laneAt_chi_of_forall_eq⟩
  obtain rfl : x₁ = x + 1 := Fin.ext h₁
  obtain rfl : x₂ = x + 2 := Fin.ext h₂
  refine ⟨laneAt_chi A x y, fun z hz => ?_⟩
  simp [hz]

/-! ## The rounds (40_permutation.md R107, R108) -/

theorem roundsFrom_succ (A : Lanes) {n : Nat} (h : n < 24) :
    roundsFrom A (n + 1) = rnd (roundsFrom A n) ⟨n, h⟩ := by
  simp [roundsFrom, List.take_add_one, h]

theorem roundsFrom_24 (A : Lanes) : roundsFrom A 24 = keccakP A := rfl

/-- A run of the rounds is determined by its start. -/
theorem eq_roundsFrom {A : Lanes} {run : Nat → Lanes} (h0 : run 0 = A)
    (hrun : ∀ (n : Nat) (h : n < 24), run (n + 1) = rnd (run n) ⟨n, h⟩) {n : Nat} (hn : n ≤ 24) :
    run n = roundsFrom A n := by
  induction n with
  | zero => exact h0
  | succ n ih => rw [hrun n hn, ih (Nat.le_of_succ_le hn), roundsFrom_succ A hn]

/-- Settles O43: after its 24 rounds a run stands where the driver ends. -/
theorem permutationIsTheRoundsInOrder : Obligations.PermutationIsTheRoundsInOrder := by
  refine ⟨fun _ _ => rfl, fun A run h0 hrun => ?_⟩
  rw [eq_roundsFrom h0 hrun le_rfl, roundsFrom_24]

end Sys2Proof.Machine

namespace Sys2Proof

/-! ## The illegal words of one opcode (30_encoding.md R81) -/

theorem decode_of_rsvField_ne_zero {cmd : BitVec 16} (h : rsvField cmd ≠ 0) (d : Lane) :
    decode cmd d = .error .rsvNotZero :=
  if_pos h

theorem decode_absorb (b : Byte) (d : Lane) : decode (0x3000 ||| b.setWidth 16) d = .ok (.absorb b) :=
  decode_encode (i := .absorb b) rfl d

theorem decode_squeeze (d : Lane) : decode 0x5000 d = .ok .squeeze :=
  decode_encode (i := .squeeze) rfl d

/-- An opcode that belongs to one command only, as that of a command without operand, has one legal word. -/
theorem exists_decode_eq_error_of_opcField_eq {i : Instr} (honly : ∀ j, opcodeOf j = opcodeOf i → j = i)
    {cmd : BitVec 16} (hopc : opcField cmd = opcodeOf i) (hne : cmd ≠ encode i) (d : Lane) :
    ∃ e, decode cmd d = .error e := by
  by_contra hlegal
  obtain ⟨j, hj⟩ := (not_exists_decode_eq_error_iff cmd d).mp hlegal
  obtain ⟨-, rfl, -⟩ := of_decode_eq_ok hj
  rw [opcField_encode] at hopc
  exact hne (congrArg encode (honly j hopc))

theorem eq_squeeze_of_opcodeOf_eq (j : Instr) (h : opcodeOf j = opcodeOf .squeeze) : j = .squeeze := by
  cases j <;> simp_all [opcodeOf]

end Sys2Proof

namespace Sys2Proof.Machine

/-! ## ABSORB (41_absorb_squeeze.md R132) -/

section
variable {s : State} {b : Byte}

theorem exec_absorb_of_ne_absorb (h : s.phase ≠ .absorb) :
    exec (.absorb b) s = .next (s.faulted .errSeq) :=
  if_neg h

theorem exec_absorb_of_absorb (h : s.phase = .absorb) (hpos : s.pos.toNat < 200) :
    exec (.absorb b) s = .next ((s.absorbed b).answered 0) :=
  (if_pos h).trans (dif_pos hpos)

end

/-- Settles O13: the word is illegal by its RSV field, the phase check decides between completion and ERR_SEQ, and the
lanes are the old ones with the byte XORed in, permuted when the block is full. -/
theorem absorbXorsTheByteAtPos : Obligations.AbsorbXorsTheByteAtPos := by
  refine ⟨fun cmd d s _ hrsv => transact_of_illegal (decode_of_rsvField_ne_zero hrsv d) s,
    fun b s => ⟨decode_absorb b, exec_absorb_of_ne_absorb, fun hphase hpos =>
      ⟨memXor s.lanes s.pos.toNat b, memRead_memXor s.lanes s.pos.toNat b, fun hne => ?_, fun hfull => ?_⟩⟩⟩
  · rw [exec_absorb_of_absorb hphase hpos, absorbed_of_ne s hne (by omega)]
    rfl
  · rw [exec_absorb_of_absorb hphase hpos, absorbed_of_eq s hfull]
    rfl

/-! ## SQUEEZE (41_absorb_squeeze.md R133) -/

theorem delivered_eq_true_iff {s : State} : s.delivered = true ↔ dlen s.variant = some s.outcnt.toNat :=
  decide_eq_true_iff

section
variable {s : State}

theorem exec_squeeze_of_ne_squeeze (h : s.phase ≠ .squeeze) :
    exec .squeeze s = .next (s.faulted .errSeq) :=
  if_neg h

theorem exec_squeeze_of_delivered (h : s.phase = .squeeze) (hdlen : dlen s.variant = some s.outcnt.toNat) :
    exec .squeeze s = .next (s.faulted .errLength) :=
  (if_pos h).trans (if_pos (delivered_eq_true_iff.mpr hdlen))

/-- With a byte still to give, SQUEEZE gives the one at the position it stands at after the lazy permutation. -/
theorem exec_squeeze_of_not_delivered (h : s.phase = .squeeze) (hdlen : dlen s.variant ≠ some s.outcnt.toNat)
    {p : Fin 200} (hp : p.val = s.refilled.pos.toNat) :
    exec .squeeze s =
      .next (s.refilled.squeezed.answered ((memRead s.refilled.lanes p).setWidth 64)) := by
  have hbyte : s.refilled.pos.toNat < 200 := hp ▸ p.isLt
  obtain rfl : p = ⟨s.refilled.pos.toNat, hbyte⟩ := Fin.ext hp
  exact (if_pos h).trans <| (if_neg (mt delivered_eq_true_iff.mp hdlen)).trans (dif_pos hbyte)

/-- OUTCNT counts for the fixed variants, those of code 3 or less (R17). -/
theorem squeezed_outcnt_eq : s.squeezed.outcnt =
    if (variantCode s.variant).toNat ≤ 3 then s.outcnt + 1 else s.outcnt := by
  rw [squeezed_outcnt]
  simp only [dlen_isSome_iff]

end

/-- Settles O14: SQUEEZE's word is the one legal word of its opcode; the phase check and then the length check decide
which fault it raises; else the byte is read from the lanes of the state with its used-up block refilled. -/
theorem squeezeReturnsTheByteAtPos : Obligations.SqueezeReturnsTheByteAtPos := by
  refine ⟨decode_squeeze, fun cmd d s hopc hne => ?_, fun s => ⟨exec_squeeze_of_ne_squeeze,
    exec_squeeze_of_delivered, fun hphase hdlen =>
      ⟨s.squeezed.outcnt, squeezed_outcnt_eq, fun p hp hne => ?_, fun hfull => ?_⟩⟩⟩
  · obtain ⟨e, he⟩ := exists_decode_eq_error_of_opcField_eq eq_squeeze_of_opcodeOf_eq hopc hne d
    exact transact_of_illegal he s
  · have hrefilled := refilled_of_ne s hne
    rw [exec_squeeze_of_not_delivered hphase hdlen (hrefilled.symm ▸ hp), hrefilled]
    rfl
  · have hrefilled := refilled_of_eq s hfull
    have hstart : (0 : Fin 200).val = s.refilled.pos.toNat := by rw [hrefilled]; rfl
    rw [exec_squeeze_of_not_delivered hphase hdlen hstart, hrefilled]
    rfl

/-! ## AbsorbBlock and SqueezeBlock (41_absorb_squeeze.md R130, R131) -/

@[simp] theorem absorbBlock_nil (A : Lanes) (rate : Nat) : absorbBlock A [] rate = A := by
  simp [absorbBlock]

/-- Positions past the end of the block are not reached. -/
theorem range_zip_eq_of_length_le {d : List Byte} {rate : Nat} (h : d.length ≤ rate) :
    (List.range rate).zip d = (List.range d.length).zip d := by
  rw [List.zip_eq_zip_take_min]
  simp [List.take_range, h]

/-- The last byte of a block that fits the rate is XORed in last, at the position after the others. -/
theorem absorbBlock_append_singleton (A : Lanes) {d : List Byte} {rate : Nat} (h : d.length < rate) (b : Byte) :
    absorbBlock A (d ++ [b]) rate = memXor (absorbBlock A d rate) d.length b := by
  have hlen : (d ++ [b]).length = d.length + 1 := List.length_append
  have hzip : (List.range rate).zip (d ++ [b]) = (List.range rate).zip d ++ [(d.length, b)] := by
    rw [range_zip_eq_of_length_le (hlen ▸ h), range_zip_eq_of_length_le h.le, hlen, List.range_succ,
      List.zip_append List.length_range]
    rfl
  simp [absorbBlock, hzip]

theorem memRead_absorbBlock (A : Lanes) {d : List Byte} {rate : Nat} (h : d.length ≤ rate) (p : Fin 200) :
    memRead (absorbBlock A d rate) p =
      if _ : p.val < d.length then memRead A p ^^^ d[p.val] else memRead A p := by
  induction d using List.reverseRecOn with
  | nil => simp
  | append_singleton d b ih =>
    rw [List.length_append, List.length_singleton] at h
    rw [absorbBlock_append_singleton A h, memRead_memXor, ih (Nat.le_of_succ_le h)]
    rcases Nat.lt_trichotomy p.val d.length with hlt | heq | hgt
    · simp [hlt, hlt.ne, Nat.lt_succ_of_lt hlt]
    · simp [heq]
    · simp [hgt.ne', hgt.not_gt, Nat.not_lt.mpr (Nat.succ_le_of_lt hgt)]

/-- Settles O48, by induction on the block from its end. -/
theorem absorbBlockXorsByteByByte : Obligations.AbsorbBlockXorsByteByByte :=
  fun A _ _ h => memRead_absorbBlock A h

theorem length_squeezeBlock (A : Lanes) {n : Nat} (h : n ≤ 200) : (squeezeBlock A n).length = n := by
  simp [squeezeBlock, h]

theorem getElem?_squeezeBlock (A : Lanes) {n : Nat} {p : Fin 200} (h : p.val < n) :
    (squeezeBlock A n)[p.val]? = some (memRead A p) := by
  simp [squeezeBlock, h]

/-- Settles O49: the block is the first `n` positions in order, each read. -/
theorem squeezeBlockReadsInOrder : Obligations.SqueezeBlockReadsInOrder :=
  fun A _ h => ⟨length_squeezeBlock A h, fun _ => getElem?_squeezeBlock A⟩

end Sys2Proof.Machine

namespace Sys2Proof.Machine

/-! ## PadBlock (42_padding.md R146) -/

section
variable (tail : List Byte) (dom : Domain)

/-- The one free byte carries the suffix and the terminator. -/
theorem padBlock_of_one_free : padBlock tail (tail.length + 1) dom = tail ++ [combined dom] := by
  simp [padBlock]

/-- With two free bytes or more the suffix and the terminator stand apart, zeros between them. -/
theorem padBlock_of_two_free (k : Nat) :
    padBlock tail (tail.length + (k + 2)) dom =
      tail ++ suffix dom :: (List.replicate k 0 ++ [terminator]) := by
  have hlast : tail.length + (k + 2) - 1 = tail.length + (k + 1) := rfl
  have hzeros : List.replicate (k + 2) 0#8 = 0#8 :: (List.replicate k 0#8 ++ [0#8]) := by
    rw [List.replicate_succ, List.replicate_succ']
  simp [padBlock, hlast, hzeros]

/-- The bytes after the tail when two or more are free. -/
theorem getElem?_suffix_zeros_terminator {k p : Nat} (h : p < k + 2) :
    (suffix dom :: (List.replicate k 0 ++ [terminator]))[p]? =
      some (if p = 0 then suffix dom else if p = k + 1 then terminator else 0) := by
  cases p with
  | zero => rfl
  | succ j =>
    rcases Nat.lt_succ_iff_lt_or_eq.mp (Nat.lt_of_succ_lt_succ h) with hlt | rfl
    · simp [List.getElem?_append, hlt, hlt.ne]
    · simp

end

section
variable {tail : List Byte} {rate : Nat} (dom : Domain) (hlen : tail.length < rate)
include hlen

theorem length_padBlock : (padBlock tail rate dom).length = rate := by
  obtain ⟨_ | k, rfl⟩ := Nat.exists_eq_add_of_lt hlen
  · simp [padBlock_of_one_free]
  · simp [Nat.add_assoc, padBlock_of_two_free]

theorem getElem?_padBlock {p : Nat} (hp : p < rate) :
    (padBlock tail rate dom)[p]? = some (
      if _ : p < tail.length then tail[p]
      else if rate - tail.length = 1 then combined dom
      else if p = tail.length then suffix dom
      else if p = rate - 1 then terminator else 0) := by
  obtain ⟨_ | k, rfl⟩ := Nat.exists_eq_add_of_lt hlen
  · rw [Nat.add_zero] at hp ⊢
    rw [padBlock_of_one_free]
    rcases Nat.lt_succ_iff_lt_or_eq.mp hp with hlt | rfl
    · simp [List.getElem?_append_left, hlt]
    · simp
  · rw [Nat.add_assoc] at hp ⊢
    rw [padBlock_of_two_free]
    rcases Nat.lt_or_ge p tail.length with hlt | hge
    · simp [List.getElem?_append_left, hlt]
    · obtain ⟨j, rfl⟩ := Nat.exists_eq_add_of_le hge
      have hlast : tail.length + (k + 1 + 1) - 1 = tail.length + (k + 1) := rfl
      rw [List.getElem?_append_right hge, Nat.add_sub_cancel_left,
        getElem?_suffix_zeros_terminator dom (Nat.lt_of_add_lt_add_left hp)]
      simp [hlast]

end

/-- Settles O46: the suffix, the combined byte and the terminator of R145 are the bytes that the statement writes out. -/
theorem padBlockBytes : Obligations.PadBlockBytes := by
  refine fun tail rate dom h => ⟨length_padBlock dom h, fun p hp => ?_⟩
  cases dom <;> exact getElem?_padBlock _ h hp

end Sys2Proof.Machine

namespace Sys2Proof

theorem decode_final (d : Lane) : decode 0x4000 d = .ok .final :=
  decode_encode (i := .final) rfl d

theorem eq_final_of_opcodeOf_eq (j : Instr) (h : opcodeOf j = opcodeOf .final) : j = .final := by
  cases j <;> simp_all [opcodeOf]

end Sys2Proof

namespace Sys2Proof.Machine

/-! ## The padding on the byte view (42_padding.md R148) -/

/-- A byte XORed in at position `p` is XORed with nothing elsewhere. -/
theorem memRead_memXor_eq_xor (A : Lanes) (p : Nat) (v : Byte) (q : Fin 200) :
    memRead (memXor A p v) q = memRead A q ^^^ (if q.val = p then v else 0) := by
  rw [memRead_memXor]
  split
  · rfl
  · exact BitVec.xor_zero.symm

theorem memRead_padXor (A : Lanes) (pos rate : Nat) (dom : Domain) (p : Fin 200) :
    memRead (padXor A pos rate dom) p = memRead A p ^^^
      (if rate = pos + 1 then (if p.val = pos then combined dom else 0)
       else (if p.val = pos then suffix dom else 0) ^^^ (if p.val = rate - 1 then terminator else 0)) := by
  by_cases hone : rate = pos + 1
  · rw [padXor, if_pos hone.symm, if_pos hone, memRead_memXor_eq_xor]
  · rw [padXor, if_neg (Ne.symm hone), if_neg hone, memRead_memXor_eq_xor, memRead_memXor_eq_xor,
      BitVec.xor_assoc]

/-! ## FINAL (43_sponge.md R158) -/

section
variable {s : State}

theorem exec_final_of_ne_absorb (h : s.phase ≠ .absorb) : exec .final s = .next (s.faulted .errSeq) :=
  if_neg h

theorem exec_final_of_absorb (h : s.phase = .absorb) (hpos : s.pos.toNat < 200) :
    exec .final s = .next (s.finished.answered 0) :=
  (if_pos h).trans (dif_pos hpos)

end

/-- Settles O15: FINAL's word is the one legal word of its opcode, its phase check decides between completion and
ERR_SEQ, and the lanes it permutes are the padded ones. -/
theorem finalPadsPermutesAndSwitches : Obligations.FinalPadsPermutesAndSwitches := by
  refine ⟨decode_final, fun cmd d s hopc hne => ?_, fun s => ⟨exec_final_of_ne_absorb, fun hphase hpos =>
    ⟨padXor s.lanes s.pos.toNat (rate s.variant) (domain s.variant), memRead_padXor _ _ _ _,
      exec_final_of_absorb hphase hpos⟩⟩⟩
  obtain ⟨e, he⟩ := exists_decode_eq_error_of_opcField_eq eq_final_of_opcodeOf_eq hopc hne d
  exact transact_of_illegal he s

end Sys2Proof.Machine

namespace Sys2Proof.Machine

/-! ## The code a legal word reports (60_exceptions.md R221) -/

section
variable {cmd : BitVec 16} {d : Lane} {i : Instr} {s t : State}

theorem transact_of_legal (h : decode cmd d = .ok i) (s : State) : transact cmd d s = exec i s := by
  simp only [transact, h]

theorem reportedCode_of_legal (h : decode cmd d = .ok i) (s : State) :
    reportedCode cmd d s =
      if invalidVariant i then 1
      else if !legalIn i s.phase then 3
      else if i = .squeeze ∧ dlen s.variant = some s.outcnt.toNat then 2
      else 0 := by
  simp only [reportedCode, h]

/-- ERR_ILLEGAL is no fault of a legal word, since the word of a lane command names a lane. -/
theorem reportedCode_of_raises {c : FaultCode} (hi : decode cmd d = .ok i) (h : Raises i s c) :
    reportedCode cmd d s = faultCode c := by
  rw [reportedCode_of_legal hi]
  cases i with
  | status | clear => exact h.elim
  | init v =>
    obtain ⟨hv, rfl⟩ := h
    exact if_pos (decide_eq_true ((variantOfCode_eq_none v).mp hv))
  | absorb _ | final | permute =>
    obtain ⟨hphase, rfl⟩ := h
    simp [invalidVariant, legalIn, hphase, faultCode]
  | squeeze =>
    rcases h with ⟨hphase, rfl⟩ | ⟨hphase, hdelivered, rfl⟩
    · simp [invalidVariant, legalIn, hphase, faultCode]
    · simp [invalidVariant, legalIn, hphase, delivered_eq_true_iff.mp hdelivered, faultCode]
  | rdlane k =>
    obtain ⟨-, -, hk⟩ := decode_eq_ok_rdlane_iff.mp hi
    obtain ⟨hhigh, -⟩ := h
    omega
  | wrlane k _ =>
    obtain ⟨-, -, hk, -⟩ := decode_eq_ok_wrlane_iff.mp hi
    rcases h with ⟨hhigh, -⟩ | ⟨-, hphase, rfl⟩
    · omega
    · simp [invalidVariant, legalIn, hphase, faultCode]

/-- R219: a command completes in its legal phases only. -/
theorem legalIn_of_completes (h : Completes i s t) : legalIn i s.phase = true := by
  cases i with
  | status | clear | init _ | rdlane _ => rfl
  | absorb _ | final | squeeze | permute =>
    obtain ⟨hphase, -⟩ := h
    exact decide_eq_true hphase
  | wrlane _ _ =>
    obtain ⟨_, -, hphase, -⟩ := h
    exact decide_eq_true hphase

theorem invalidVariant_of_completes (h : Completes i s t) : invalidVariant i = false := by
  cases i with
  | init v =>
    obtain ⟨w, hw, -⟩ := h
    have hvalid : variantOfCode v ≠ none := hw ▸ Option.some_ne_none w
    exact decide_eq_false (mt (variantOfCode_eq_none v).mpr hvalid)
  | status | clear | absorb _ | final | squeeze | permute | rdlane _ | wrlane _ _ => rfl

theorem reportedCode_of_completes (hi : decode cmd d = .ok i) (h : Completes i s t) :
    reportedCode cmd d s = 0 := by
  have hlength : ¬(i = .squeeze ∧ dlen s.variant = some s.outcnt.toNat) := by
    rintro ⟨rfl, hdlen⟩
    obtain ⟨-, hdelivered, -⟩ := h
    rw [delivered_eq_true_iff.mpr hdlen] at hdelivered
    cases hdelivered
  simp [reportedCode_of_legal hi, invalidVariant_of_completes h, legalIn_of_completes h, hlength]

/-! ## The phase machine (43_sponge.md R157) -/

/-- A command that completes takes PHASE where the table says. -/
theorem phase_of_completes (h : Completes i s t) : t.phase = phaseAfter i s.phase := by
  cases i with
  | status | clear =>
    cases h
    rfl
  | init _ =>
    obtain ⟨_, -, rfl⟩ := h
    rfl
  | absorb b =>
    obtain ⟨hphase, -, rfl⟩ := h
    exact (absorbed_phase s b).trans hphase
  | final =>
    obtain ⟨-, -, rfl⟩ := h
    rfl
  | squeeze =>
    obtain ⟨hphase, -, _, -, rfl⟩ := h
    exact (refilled_phase s).trans hphase
  | permute =>
    obtain ⟨hphase, rfl⟩ := h
    exact hphase
  | rdlane _ =>
    obtain ⟨_, -, rfl⟩ := h
    rfl
  | wrlane _ _ =>
    obtain ⟨_, -, hphase, rfl⟩ := h
    exact hphase

theorem phase_and_rerr_of_legal (hi : decode cmd d = .ok i) (h : transact cmd d s = .next t) :
    t.phase = (if reportedCode cmd d s = 0 then phaseAfter i s.phase else .error) ∧
    t.rsp.map (fun r => r.rerr) = some (reportedCode cmd d s) := by
  rw [transact_of_legal hi] at h
  rcases exec_next h with ⟨c, rfl, hraises⟩ | hcompletes
  · rw [reportedCode_of_raises hi hraises, if_neg (faultCode_ne_zero c)]
    exact ⟨faulted_phase s c, rfl⟩
  · obtain ⟨v, hv⟩ := completes_rsp hcompletes
    rw [reportedCode_of_completes hi hcompletes, if_pos rfl, hv]
    exact ⟨phase_of_completes hcompletes, rfl⟩

/-- Every fault leads to ERROR, so a transaction that leads elsewhere is a command legal where it was given. -/
theorem exists_legalIn_of_phase_ne_error (h : transact cmd d s = .next t) (hne : t.phase ≠ .error) :
    ∃ i, decode cmd d = .ok i ∧ legalIn i s.phase = true ∧ t.phase = phaseAfter i s.phase := by
  rcases transact_next h with ⟨e, -, rfl⟩ | ⟨i, hi, hexec⟩
  · exact absurd (faulted_phase s .errIllegal) hne
  · rcases exec_next hexec with ⟨c, rfl, -⟩ | hcompletes
    · exact absurd (faulted_phase s c) hne
    · exact ⟨i, hi, legalIn_of_completes hcompletes, phase_of_completes hcompletes⟩

end

section
variable {i : Instr} {p : Phase}

/-- The table's one entry into SQUEEZE. -/
theorem eq_final_of_phaseAfter_eq_squeeze (hlegal : legalIn i p = true) (hp : p ≠ .squeeze)
    (h : phaseAfter i p = .squeeze) : i = .final ∧ p = .absorb := by
  cases i with
  | final => exact ⟨rfl, of_decide_eq_true hlegal⟩
  | squeeze => exact absurd (of_decide_eq_true hlegal) hp
  | status | rdlane _ => exact absurd h hp
  | clear | init _ | absorb _ | permute | wrlane _ _ => cases h

/-- The table's one way from SQUEEZE to ABSORB. -/
theorem exists_eq_init_of_phaseAfter_eq_absorb (hlegal : legalIn i .squeeze = true)
    (h : phaseAfter i .squeeze = .absorb) : ∃ v, i = .init v := by
  cases i with
  | init v => exact ⟨v, rfl⟩
  | absorb _ => cases hlegal
  | status | clear | final | squeeze | permute | rdlane _ | wrlane _ _ => cases h

end

/-- Settles O25: a transaction faults into ERROR or is a legal command that completes, and the two no-way-back clauses
are read off the table of R157 together with the legal phases of R219. -/
theorem phaseMachine : Obligations.PhaseMachine := by
  refine ⟨fun cmd d s t i => phase_and_rerr_of_legal, fun cmd d s t e he h => ?_, fun s t h => ?_,
    fun cmd d s t h hs ht => ?_, fun cmd d s t h hs ht => ?_⟩
  · rw [transact_of_illegal he] at h
    cases h
    exact ⟨rfl, rfl⟩
  · rw [handleEvent_reset] at h
    cases h
    exact takeReset_phase s
  · obtain ⟨i, hi, hlegal, hphase⟩ := exists_legalIn_of_phase_ne_error h (by simp [ht])
    obtain ⟨rfl, habsorb⟩ := eq_final_of_phaseAfter_eq_squeeze hlegal hs (hphase ▸ ht)
    exact ⟨hi, habsorb⟩
  · obtain ⟨i, hi, hlegal, hphase⟩ := exists_legalIn_of_phase_ne_error h (by simp [ht])
    rw [hs] at hlegal hphase
    obtain ⟨v, rfl⟩ := exists_eq_init_of_phaseAfter_eq_absorb hlegal (hphase ▸ ht)
    exact ⟨v, hi⟩

end Sys2Proof.Machine

namespace Sys2Proof.Machine

/-! ## INIT (44_variant.md R181 to R184) -/

theorem decode_init (v : BitVec 3) (d : Lane) : decode (0x2000 ||| v.setWidth 16) d = .ok (.init v) :=
  encode_init v ▸ decode_encode (i := .init v) rfl d

/-- With OPC 2, the words with RSV or ARG[7:3] not 0 are illegal (R81 (a) and (d)). -/
theorem exists_decode_eq_error_of_init_opcode {cmd : BitVec 16} (hopc : opcField cmd = 2)
    (hfields : rsvField cmd ≠ 0 ∨ cmd.extractLsb' 3 5 ≠ 0) (d : Lane) : ∃ e, decode cmd d = .error e := by
  rcases hfields with hrsv | hhigh
  · exact ⟨_, decode_of_rsvField_ne_zero hrsv d⟩
  · have hopc' : cmd.toNat / 4096 = 2 := by rw [← toNat_opcField, hopc]; rfl
    have hhigh' : cmd.toNat / 8 % 32 ≠ 0 := by
      rwa [← BitVec.toNat_ne_iff_ne, BitVec.extractLsb'_toNat, Nat.shiftRight_eq_div_pow] at hhigh
    have harg : cmd.toNat % 256 / 8 ≠ 0 := by omega
    exact (exists_decode_eq_error_iff cmd d).mpr (.inr (.inr (.inr (.inl ⟨hopc', harg⟩))))

section
variable {v : BitVec 3}

theorem exec_init_of_variant {w : Variant} (h : variantOfCode v = some w) (s : State) :
    exec (.init v) s = .next ((s.started w).answered 0) := by
  simp only [exec, execInit, h, respond_eq]

theorem exec_init_of_no_variant (h : variantOfCode v = none) (s : State) :
    exec (.init v) s = .next (s.faulted .errVariant) := by
  simp only [exec, execInit, h, raise_eq]

theorem exists_variantOfCode_eq_some (h : v.toNat < 6) : ∃ w, variantOfCode v = some w :=
  Option.ne_none_iff_exists'.mp fun hnone => absurd ((variantOfCode_eq_none v).mp hnone) (by omega)

end

/-- Settles O12: the table is read off variant by variant, INIT's word is illegal by its RSV or its ARG[7:3] field, and
whether the code names a variant decides between the started computation and ERR_VARIANT. -/
theorem initStartsAComputation : Obligations.InitStartsAComputation := by
  refine ⟨fun w => by cases w <;> decide, fun cmd d s hopc hfields => ?_,
    fun v s => ⟨decode_init v, fun hv => ?_, fun hv => ?_⟩⟩
  · obtain ⟨e, he⟩ := exists_decode_eq_error_of_init_opcode hopc hfields d
    exact transact_of_illegal he s
  · obtain ⟨w, hw⟩ := exists_variantOfCode_eq_some hv
    exact ⟨zeroLanes, w, laneAt_zeroLanes, variantCode_of hw, exec_init_of_variant hw s⟩
  · exact exec_init_of_no_variant ((variantOfCode_eq_none v).mpr hv) s

end Sys2Proof.Machine

namespace Sys2Proof.Machine

/-! ## The output length policy (44_variant.md R185) -/

section
variable {s : State}

/-- After the lazy permutation POS stands inside the block (R133). -/
theorem refilled_pos_lt_rate (h : s.pos.toNat ≤ rate s.variant) :
    s.refilled.pos.toNat < rate s.variant := by
  by_cases hfull : s.pos.toNat = rate s.variant
  · rw [refilled_of_eq s hfull]
    exact Nat.lt_of_lt_of_le (Nat.zero_lt_succ _) (rate_ge s.variant)
  · rw [refilled_of_ne s hfull]
    omega

/-- A SQUEEZE leaves POS at the end of the block at most (R38 (f)). -/
theorem squeezed_refilled_pos_le_rate (h : s.pos.toNat ≤ rate s.variant) :
    s.refilled.squeezed.pos.toNat ≤ rate s.variant := by
  have hinside := refilled_pos_lt_rate h
  have hrate := rate_le s.variant
  rw [squeezed_pos, BitVec.toNat_add_of_lt (Nat.lt_of_le_of_lt hinside (by omega))]
  exact hinside

/-- The 7 bits of OUTCNT can count up to DLEN. -/
theorem squeezed_refilled_outcnt_of_fixed {k : Nat} (hk : dlen s.variant = some k) (hlt : s.outcnt.toNat < k) :
    s.refilled.squeezed.outcnt.toNat = s.outcnt.toNat + 1 := by
  have hmax := (dlen_le_rate hk).2
  have hcount : s.refilled.squeezed.outcnt = s.outcnt + 1 := by simp [hk]
  rw [hcount, BitVec.toNat_add_of_lt (Nat.lt_of_le_of_lt hlt (by omega))]
  rfl

theorem squeezed_refilled_outcnt_of_xof (hxof : dlen s.variant = none) :
    s.refilled.squeezed.outcnt = s.outcnt := by
  simp [hxof]

/-- In phase SQUEEZE, DONE is the length check of SQUEEZE (R29, R185). -/
theorem done_eq_true_iff_of_squeeze (h : s.phase = .squeeze) :
    s.done = true ↔ dlen s.variant = some s.outcnt.toNat := by
  simp [State.done, h, delivered_eq_true_iff]

end

/-- What `n` SQUEEZE commands that raise no fault make of `s`: POS stays within the block or at its end, and OUTCNT has
counted them if the variant is fixed, and nothing if it is an XOF variant. -/
structure SqueezedTo (n : Nat) (s t : State) : Prop where
  phase : t.phase = .squeeze
  variant : t.variant = s.variant
  pos_le : t.pos.toNat ≤ rate s.variant
  outcnt_fixed : ∀ k, dlen s.variant = some k → t.outcnt.toNat = s.outcnt.toNat + n
  outcnt_xof : dlen s.variant = none → t.outcnt = s.outcnt

namespace SqueezedTo

variable {m n : Nat} {s t u : State}

theorem refl (hphase : s.phase = .squeeze) (hpos : s.pos.toNat ≤ rate s.variant) : SqueezedTo 0 s s :=
  ⟨hphase, rfl, hpos, fun _ _ => rfl, fun _ => rfl⟩

theorem trans (hst : SqueezedTo m s t) (htu : SqueezedTo n t u) : SqueezedTo (m + n) s u where
  phase := htu.phase
  variant := htu.variant.trans hst.variant
  pos_le := hst.variant ▸ htu.pos_le
  outcnt_fixed k hk := by
    rw [htu.outcnt_fixed k (hst.variant.symm ▸ hk), hst.outcnt_fixed k hk, Nat.add_assoc]
  outcnt_xof hxof := (htu.outcnt_xof (hst.variant.symm ▸ hxof)).trans (hst.outcnt_xof hxof)

end SqueezedTo

/-- A fixed variant that has bytes left to deliver, and an XOF variant always, answers a SQUEEZE with no fault. -/
theorem exists_exec_squeeze {s : State} (hphase : s.phase = .squeeze) (hpos : s.pos.toNat ≤ rate s.variant)
    (hroom : ∀ k, dlen s.variant = some k → s.outcnt.toNat < k) :
    ∃ t v, exec .squeeze s = .next t ∧ t.rsp = some ⟨v, 0⟩ ∧ SqueezedTo 1 s t := by
  have hbyte : s.refilled.pos.toNat < 200 :=
    Nat.lt_of_lt_of_le (refilled_pos_lt_rate hpos) ((rate_le s.variant).trans (by decide))
  have hdlen : dlen s.variant ≠ some s.outcnt.toNat := fun h => Nat.lt_irrefl _ (hroom _ h)
  exact ⟨_, _, exec_squeeze_of_not_delivered hphase hdlen (p := ⟨_, hbyte⟩) rfl, rfl, by simp [hphase], by simp,
    squeezed_refilled_pos_le_rate hpos, fun k hk => squeezed_refilled_outcnt_of_fixed hk (hroom k hk),
    squeezed_refilled_outcnt_of_xof⟩

/-- While DLEN, if there is one, leaves room for `n` more bytes, `n` SQUEEZEs are answered with no fault. -/
theorem exists_serve_squeezeN (n : Nat) {s : State} (hphase : s.phase = .squeeze)
    (hpos : s.pos.toNat ≤ rate s.variant) (hroom : ∀ k, dlen s.variant = some k → s.outcnt.toNat + n ≤ k) :
    ∃ t rs, serve (squeezeN n) s = some (t, rs) ∧ (∀ r ∈ rs, ∃ v, r = some ⟨v, 0⟩) ∧ SqueezedTo n s t := by
  induction n generalizing s with
  | zero => exact ⟨s, [], rfl, by simp, .refl hphase hpos⟩
  | succ n ih =>
    obtain ⟨u, v, hexec, hrsp, hu⟩ := exists_exec_squeeze hphase hpos fun k hk => by
      have := hroom k hk
      omega
    have hroom' (k : Nat) (hk : dlen u.variant = some k) : u.outcnt.toNat + n ≤ k := by
      rw [hu.variant] at hk
      rw [hu.outcnt_fixed k hk, Nat.add_assoc, Nat.add_comm 1]
      exact hroom k hk
    obtain ⟨t, rs, hserve, hrs, ht⟩ := ih hu.phase (hu.variant.symm ▸ hu.pos_le) hroom'
    have hevent := (handleEvent_send (i := .squeeze) rfl s).trans hexec
    exact ⟨t, u.rsp :: rs, serve_cons_eq_some_iff.mpr ⟨u, rs, hevent, hserve, rfl⟩,
      List.forall_mem_cons.mpr ⟨⟨v, hrsp⟩, hrs⟩, Nat.add_comm 1 n ▸ hu.trans ht⟩

/-- Settles O52: from POS and OUTCNT 0, `n` SQUEEZEs are answered as long as `n` is at most DLEN, and both DONE and the
length check of the next SQUEEZE compare DLEN with OUTCNT, which has counted to `n`. -/
theorem outputLengthPolicy : Obligations.OutputLengthPolicy := by
  intro s n hphase hpos houtcnt
  have hstart : s.pos.toNat ≤ rate s.variant := hpos ▸ Nat.zero_le _
  have hzero : s.outcnt.toNat = 0 := congrArg BitVec.toNat houtcnt
  refine ⟨fun k hk hn => ?_, fun hxof => ?_⟩
  · obtain ⟨t, rs, hserve, hrs, ht⟩ := exists_serve_squeezeN n hphase hstart (by simpa [hzero, hk] using hn)
    have hcount : t.outcnt.toNat = n := by rw [ht.outcnt_fixed k hk, hzero, Nat.zero_add]
    have hdelivered : dlen t.variant = some t.outcnt.toNat ↔ n = k := by
      rw [ht.variant, hk, hcount, Option.some_inj, eq_comm]
    exact ⟨t, rs, hserve, hrs, hcount, (done_eq_true_iff_of_squeeze ht.phase).trans hdelivered, fun hnk d =>
      (transact_of_legal (decode_squeeze d) t).trans (exec_squeeze_of_delivered ht.phase (hdelivered.mpr hnk))⟩
  · obtain ⟨t, rs, hserve, hrs, ht⟩ := exists_serve_squeezeN n hphase hstart (by simp [hxof])
    have hnot : ¬t.done = true := by
      rw [done_eq_true_iff_of_squeeze ht.phase, ht.variant, hxof]
      exact (Option.some_ne_none _).symm
    exact ⟨t, rs, hserve, hrs, (ht.outcnt_xof hxof).trans houtcnt, Bool.eq_false_of_not_eq_true hnot⟩

end Sys2Proof.Machine

namespace Sys2Proof

/-! ## The words of the commands without operand and of the lane commands (30_encoding.md R79, R81) -/

theorem decode_status (d : Lane) : decode 0x0000 d = .ok .status :=
  decode_encode (i := .status) rfl d

theorem decode_clear (d : Lane) : decode 0x1000 d = .ok .clear :=
  decode_encode (i := .clear) rfl d

theorem decode_rdlane {i : BitVec 5} (hi : i.toNat ≤ 24) (d : Lane) :
    decode (0x7000 ||| i.setWidth 16) d = .ok (.rdlane i) :=
  encode_rdlane i ▸ decode_encode (i := .rdlane i) (decide_eq_true hi) d

theorem decode_wrlane {i : BitVec 5} (hi : i.toNat ≤ 24) (d : Lane) :
    decode (0x8000 ||| i.setWidth 16) d = .ok (.wrlane i d) :=
  encode_wrlane i d ▸ decode_encode (i := .wrlane i d) (decide_eq_true hi) d

/-- The opcode of a command without operand is that of no other command (R78). -/
theorem eq_of_opcodeOf_eq {i j : Instr} (hi : opcodeOf i ∈ [0x0, 0x1, 0x4, 0x5, 0x6])
    (h : opcodeOf j = opcodeOf i) : j = i := by
  cases i with
  | status | clear | final | squeeze | permute => cases j <;> simp_all [opcodeOf]
  | init _ | absorb _ | rdlane _ | wrlane _ _ => exact absurd hi (by simp [opcodeOf])

/-- With OPC 7 or 8, the words with RSV or ARG[7:5] not 0, or with ARG[4:0] of 25 or more, are illegal
(R81 (a) and (e)). -/
theorem exists_decode_eq_error_of_lane_opcode {cmd : BitVec 16} (hopc : opcField cmd = 7 ∨ opcField cmd = 8)
    (hfields : rsvField cmd ≠ 0 ∨ cmd.extractLsb' 5 3 ≠ 0#3 ∨ 25 ≤ (cmd.extractLsb' 0 5).toNat) (d : Lane) :
    ∃ e, decode cmd d = .error e := by
  rcases hfields with hrsv | hlane
  · exact ⟨_, decode_of_rsvField_ne_zero hrsv d⟩
  · have hopc' : cmd.toNat / 4096 ∈ [7, 8] := by
      rw [← toNat_opcField]
      rcases hopc with h | h <;> simp [h]
    have harg : cmd.toNat % 256 / 32 ≠ 0 ∨ 25 ≤ cmd.toNat % 256 % 32 := by
      rw [← BitVec.toNat_ne_iff_ne, BitVec.extractLsb'_toNat, BitVec.extractLsb'_toNat,
        Nat.shiftRight_eq_div_pow, Nat.shiftRight_zero, BitVec.toNat_zero] at hlane
      omega
    exact (exists_decode_eq_error_iff cmd d).mpr (.inr (.inr (.inr (.inr ⟨hopc', harg⟩))))

end Sys2Proof

namespace Sys2Proof.Machine

/-- A command without operand has one legal word, and its opcode's other words raise ERR_ILLEGAL. -/
theorem transact_of_noOperand_opcode {i : Instr} (hi : opcodeOf i ∈ [0x0, 0x1, 0x4, 0x5, 0x6])
    {cmd : BitVec 16} (hopc : opcField cmd = opcodeOf i) (hne : cmd ≠ encode i) (d : Lane) (s : State) :
    transact cmd d s = .next (s.afterFault 4) := by
  obtain ⟨e, he⟩ := exists_decode_eq_error_of_opcField_eq (fun _ => eq_of_opcodeOf_eq hi) hopc hne d
  exact transact_of_illegal he s

/-- The illegal words of the opcodes of RDLANE and WRLANE raise ERR_ILLEGAL. -/
theorem transact_of_lane_opcode {cmd : BitVec 16} (hopc : opcField cmd = 7 ∨ opcField cmd = 8)
    (hfields : rsvField cmd ≠ 0 ∨ cmd.extractLsb' 5 3 ≠ 0#3 ∨ 25 ≤ (cmd.extractLsb' 0 5).toNat)
    (d : Lane) (s : State) : transact cmd d s = .next (s.afterFault 4) := by
  obtain ⟨e, he⟩ := exists_decode_eq_error_of_lane_opcode hopc hfields d
  exact transact_of_illegal he s

/-! ## The fields of the status word (10_state.md R29) -/

/-- A value placed at bit `k` of a lane is read back at bit `k`. -/
theorem extractLsb'_shiftLeft_same {k w : Nat} (v : BitVec w) (h : k + w ≤ 64) :
    (v.setWidth 64 <<< k).extractLsb' k w = v := by
  ext n hn
  have hbit : k + n < 64 := by omega
  simp [hbit, hn]

/-- A value placed above or below a bit range leaves the range 0. -/
theorem extractLsb'_shiftLeft_apart {j k w w' : Nat} (v : BitVec w) (h : j + w ≤ k ∨ k + w' ≤ j) :
    (v.setWidth 64 <<< j).extractLsb' k w' = 0#w' := by
  ext n hn
  rcases h with habove | hbelow
  · have hge : w ≤ k + n - j := by omega
    simp [BitVec.getLsbD_of_ge v _ hge]
  · have hlt : k + n < j := by omega
    simp [hlt]

/-- R29's word with PHASE placed at bit 0, so that each of the six fields has the one form. -/
theorem statusWord_eq_or (s : State) : statusWord s =
    (phaseCode s.phase).setWidth 64 <<< 0 ||| (BitVec.ofBool s.done).setWidth 64 <<< 2 |||
    (variantCode s.variant).setWidth 64 <<< 4 ||| s.pos.setWidth 64 <<< 8 |||
    s.err.setWidth 64 <<< 16 ||| s.outcnt.setWidth 64 <<< 20 := by
  rw [BitVec.shiftLeft_zero, statusWord]

/-- At each bit range all fields but its own read 0, and at bits 3, 7 and 27 up all six do. -/
theorem statusWord_fields (s : State) :
    (statusWord s).extractLsb' 0 2 = phaseCode s.phase ∧
    (statusWord s).getLsbD 2 = s.done ∧
    (statusWord s).getLsbD 3 = false ∧
    (statusWord s).extractLsb' 4 3 = variantCode s.variant ∧
    (statusWord s).getLsbD 7 = false ∧
    (statusWord s).extractLsb' 8 8 = s.pos ∧
    (statusWord s).extractLsb' 16 4 = s.err ∧
    (statusWord s).extractLsb' 20 7 = s.outcnt ∧
    (statusWord s).extractLsb' 27 37 = 0#37 := by
  have hdone : (statusWord s).getLsbD 2 = s.done := by simp [statusWord]
  have hbit3 : (statusWord s).getLsbD 3 = false := by simp [statusWord]
  have hbit7 : (statusWord s).getLsbD 7 = false := by simp [statusWord]
  refine ⟨?_, hdone, hbit3, ?_, hbit7, ?_, ?_, ?_, ?_⟩ <;> rw [statusWord_eq_or] <;>
    simp (disch := omega) only [BitVec.extractLsb'_or, extractLsb'_shiftLeft_same,
      extractLsb'_shiftLeft_apart, BitVec.or_zero, BitVec.zero_or]

/-- The digest lengths of the four fixed variants (R182), and none for the XOF variants. -/
theorem dlen_eq_some_toNat_iff (v : Variant) (n : BitVec 7) :
    dlen v = some n.toNat ↔
      (v = .sha3_224 ∧ n = 28) ∨ (v = .sha3_256 ∧ n = 32) ∨ (v = .sha3_384 ∧ n = 48) ∨
        (v = .sha3_512 ∧ n = 64) := by
  cases v <;> simp [dlen, BitVec.toNat_eq, eq_comm]

theorem done_eq_true_iff {s : State} :
    s.done = true ↔ s.phase = .squeeze ∧ dlen s.variant = some s.outcnt.toNat := by
  simp [State.done, delivered_eq_true_iff]

/-! ## STATUS and CLEAR (45_lane_access_system.md R197, R198) -/

theorem exec_status (s : State) : exec .status s = .next (s.answered (statusWord s)) := rfl

theorem exec_clear (s : State) : exec .clear s = .next (s.cleared.answered 0) := rfl

/-- Settles O10: STATUS's word is the one legal word of its opcode, and the response is the status word, read field by
field; DONE compares OUTCNT with the digest length. -/
theorem statusShowsTheControlRegisters : Obligations.StatusShowsTheControlRegisters := by
  refine ⟨decode_status, fun cmd d s hopc hne =>
    transact_of_noOperand_opcode (i := .status) (by decide) hopc hne d s,
    fun s => ⟨statusWord s, exec_status s, ?_⟩, ?_⟩
  · obtain ⟨hphase, hdone, hfields⟩ := statusWord_fields s
    refine ⟨hphase, ?_, hfields⟩
    rw [hdone, done_eq_true_iff, dlen_eq_some_toNat_iff]
  · rw [exec_status, statusWord_reset, State.answered]

/-- Settles O11: CLEAR's word is the one legal word of its opcode, and what it answers is the cleared state. -/
theorem clearGivesTheResetState : Obligations.ClearGivesTheResetState :=
  ⟨decode_clear, fun _ d s hopc hne => transact_of_noOperand_opcode (i := .clear) (by decide) hopc hne d s,
    fun s => ⟨zeroLanes, laneAt_zeroLanes, exec_clear s⟩⟩

/-! ## RDLANE and WRLANE (45_lane_access_system.md R195, R196) -/

section
variable {s : State} {i : BitVec 5}

theorem withLane_of_eq {k : Fin 25} (h : i.toNat = k.val) (f : Fin 25 → Host.Outcome State Fault Refusal) :
    withLane i s f = f k := by
  have hk : (⟨i.toNat, h ▸ k.isLt⟩ : Fin 25) = k := Fin.ext h
  exact (dif_pos (h ▸ k.isLt)).trans (congrArg f hk)

theorem withLane_of_ge (h : 25 ≤ i.toNat) (f : Fin 25 → Host.Outcome State Fault Refusal) :
    withLane i s f = .next (s.faulted .errIllegal) :=
  dif_neg (Nat.not_lt.mpr h)

theorem exec_rdlane_of_eq {k : Fin 25} (h : i.toNat = k.val) :
    exec (.rdlane i) s = .next (s.answered (lane s.lanes k)) := by
  rw [exec, execRdlane, withLane_of_eq h, respond_eq]

theorem exec_rdlane_of_ge (h : 25 ≤ i.toNat) : exec (.rdlane i) s = .next (s.faulted .errIllegal) := by
  rw [exec, execRdlane, withLane_of_ge h]

theorem exec_wrlane_of_idle {k : Fin 25} (h : i.toNat = k.val) (hphase : s.phase = .idle) (d : Lane) :
    exec (.wrlane i d) s = .next (State.answered { s with lanes := setLane s.lanes k d } 0) := by
  rw [exec, execWrlane, withLane_of_eq h, inPhase, if_pos hphase, respond_eq]

theorem exec_wrlane_of_ne_idle {k : Fin 25} (h : i.toNat = k.val) (hphase : s.phase ≠ .idle) (d : Lane) :
    exec (.wrlane i d) s = .next (s.faulted .errSeq) := by
  rw [exec, execWrlane, withLane_of_eq h, inPhase, if_neg hphase, raise_eq]

theorem exec_wrlane_of_ge (h : 25 ≤ i.toNat) (d : Lane) :
    exec (.wrlane i d) s = .next (s.faulted .errIllegal) := by
  rw [exec, execWrlane, withLane_of_ge h]

end

/-- Settles O17: an illegal lane word raises ERR_ILLEGAL, and the lane of index `x + 5·y` is the one at column `x`,
row `y`. -/
theorem rdlaneReturnsTheLane : Obligations.RdlaneReturnsTheLane := by
  refine ⟨fun cmd d s hopc hfields => transact_of_lane_opcode (.inl hopc) hfields d s,
    fun i s => ⟨decode_rdlane, fun x y hi => ?_, exec_rdlane_of_ge⟩⟩
  rw [exec_rdlane_of_eq (k := laneIndex x y) hi, lane_laneIndex, State.answered]

/-- Settles O18: an illegal lane word raises ERR_ILLEGAL; for an index that names a lane the phase check decides between
the array with that lane replaced and ERR_SEQ; any other index comes before the phase. -/
theorem wrlaneWritesTheLane : Obligations.WrlaneWritesTheLane := by
  refine ⟨fun cmd d s hopc hfields => transact_of_lane_opcode (.inr hopc) hfields d s, fun i d s =>
    ⟨fun hi => decode_wrlane hi d, fun hi hphase => ?_, fun hi hphase => ?_, fun hi => exec_wrlane_of_ge hi d⟩⟩
  · refine ⟨setLane s.lanes ⟨i.toNat, Nat.lt_succ_of_le hi⟩ d, fun x y => ?_, exec_wrlane_of_idle rfl hphase d⟩
    rw [laneAt_setLane]
    simp only [laneIndex, Fin.mk.injEq, eq_comm]
  · exact exec_wrlane_of_ne_idle (k := ⟨i.toNat, Nat.lt_succ_of_le hi⟩) rfl hphase d

end Sys2Proof.Machine

namespace Sys2Proof.Machine

/-! ## The fault a transaction reports (60_exceptions.md R221, R222) -/

theorem afterFault_faultCode (s : State) (c : FaultCode) : s.afterFault (faultCode c) = s.faulted c := rfl

section
variable {cmd : BitVec 16} {d : Lane} {i : Instr} {s t : State} {r : Response}

theorem reportedCode_of_illegal {e : Illegal} (h : decode cmd d = .error e) (s : State) :
    reportedCode cmd d s = faultCode .errIllegal := by
  simp only [reportedCode, h, faultCode]

/-- A transaction is the fault entry with the code of R221, or its command performed with no fault. -/
theorem transact_next_reported (h : transact cmd d s = .next t) :
    (∃ c, reportedCode cmd d s = faultCode c ∧ t = s.faulted c) ∨
    (reportedCode cmd d s = 0 ∧ ∃ i, decode cmd d = .ok i ∧ exec i s = .next t ∧ t.succeeded) := by
  rcases transact_next h with ⟨e, he, rfl⟩ | ⟨i, hi, hexec⟩
  · exact .inl ⟨_, reportedCode_of_illegal he s, rfl⟩
  · rcases exec_next hexec with ⟨c, rfl, hraises⟩ | hcompletes
    · exact .inl ⟨c, reportedCode_of_raises hi hraises, rfl⟩
    · exact .inr ⟨reportedCode_of_completes hi hcompletes, i, hi, hexec, completes_rsp hcompletes⟩

/-- A response that shows a fault comes from the fault entry. -/
theorem exists_faulted_of_rerr_ne_zero (h : transact cmd d s = .next t) (hr : t.rsp = some r)
    (hne : r.rerr ≠ 0) :
    ∃ c, reportedCode cmd d s = faultCode c ∧ t = s.faulted c ∧ r = ⟨0, faultCode c⟩ := by
  rcases transact_next_reported h with ⟨c, hcode, rfl⟩ | ⟨-, _, -, -, v, hv⟩
  · exact ⟨c, hcode, rfl, (Option.some.inj hr).symm⟩
  · rw [hv] at hr
    cases hr
    exact absurd rfl hne

theorem eq_afterFault_of_reportedCode_ne_zero (h : transact cmd d s = .next t)
    (hne : reportedCode cmd d s ≠ 0) : t = s.afterFault (reportedCode cmd d s) := by
  rcases transact_next_reported h with ⟨c, hcode, rfl⟩ | ⟨hzero, -⟩
  · rw [hcode, afterFault_faultCode]
  · exact absurd hzero hne

/-- R219: INIT is legal in every phase, with an invalid variant too. -/
theorem legalIn_of_invalidVariant (h : invalidVariant i = true) (p : Phase) : legalIn i p = true := by
  cases i with
  | init _ => rfl
  | status | clear | absorb _ | final | squeeze | permute | rdlane _ | wrlane _ _ => cases h

theorem reportedCode_of_not_legalIn (hi : decode cmd d = .ok i) (hlegal : legalIn i s.phase = false) :
    reportedCode cmd d s = 3 := by
  have hvariant : invalidVariant i = false :=
    Bool.eq_false_of_not_eq_true fun h => by simp [legalIn_of_invalidVariant h] at hlegal
  simp [reportedCode_of_legal hi, hvariant, hlegal]

end

theorem one_le_faultCode_toNat (c : FaultCode) : 1 ≤ (faultCode c).toNat := by cases c <;> decide

/-- Settles O21: a response that shows a fault comes from the fault entry, which changes PHASE, ERR and the response. -/
theorem faultsChangeOnlyPhaseAndErr : Obligations.FaultsChangeOnlyPhaseAndErr := by
  intro cmd d s t r h hr hne
  obtain ⟨c, -, rfl, rfl⟩ := exists_faulted_of_rerr_ne_zero h hr hne
  exact ⟨one_le_faultCode_toNat c, faultCode_toNat_le c, rfl, faulted_phase s c, faulted_err s c,
    rfl, rfl, rfl, rfl, rfl⟩

/-- Settles O22: a transaction is the fault entry with the code of R221 or its command performed, and the only command
with an invalid variant is INIT. -/
theorem reportedFaultIsTheFirstThatApplies : Obligations.ReportedFaultIsTheFirstThatApplies := by
  intro cmd d s t h
  refine ⟨?_, eq_afterFault_of_reportedCode_ne_zero h, fun hzero => ?_, fun i _ hi =>
    legalIn_of_invalidVariant hi s.phase⟩
  · rcases transact_next_reported h with ⟨c, hcode, rfl⟩ | ⟨hzero, _, -, -, v, hv⟩
    · exact ⟨_, faulted_rsp s c, hcode.symm⟩
    · exact ⟨_, hv, hzero.symm⟩
  · rcases transact_next_reported h with ⟨c, hcode, -⟩ | ⟨-, hperformed⟩
    · exact absurd (hcode.symm.trans hzero) (faultCode_ne_zero c)
    · exact hperformed

/-- Settles O23: the fault entry keeps ERR in phase ERROR; in the example ABSORB faults in IDLE, and the next word has
RSV not 0. -/
theorem firstFaultIsKept : Obligations.FirstFaultIsKept := by
  refine ⟨fun cmd d s t r hs h hr hne => ?_, fun d e => ?_⟩
  · obtain ⟨c, hcode, rfl, rfl⟩ := exists_faulted_of_rerr_ne_zero h hr hne
    exact ⟨hcode.symm, (faulted_err s c).trans (if_pos hs), faulted_phase s c⟩
  · have habsorb : transact 0x3000 d State.reset = .next (State.reset.faulted .errSeq) :=
      (transact_of_legal (decode_absorb 0 d) _).trans (exec_absorb_of_ne_absorb (by decide))
    have hillegal := transact_of_illegal (decode_of_rsvField_ne_zero (cmd := 0xFFFF) (by decide) e)
      (State.reset.faulted .errSeq)
    exact ⟨_, _, habsorb, rfl, rfl, hillegal, rfl, rfl, rfl⟩

/-! ## Out of phase ERROR (60_exceptions.md R225) -/

/-- The event is a successful INIT, CLEAR or reset. -/
def LeavesError (e : HostEvent) : Prop :=
  (∃ (v : BitVec 3) (d : Lane), e = .command (0x2000 ||| v.setWidth 16) d ∧ v.toNat < 6) ∨
  (∃ d, e = .command 0x1000 d) ∨ e = .reset

section
variable {cmd : BitVec 16} {d : Lane}

theorem leavesError_of_decode_clear (h : decode cmd d = .ok .clear) : LeavesError (.command cmd d) := by
  obtain ⟨-, rfl, -⟩ := of_decode_eq_ok h
  exact .inr (.inl ⟨d, rfl⟩)

theorem leavesError_of_decode_init {v : BitVec 3} (h : decode cmd d = .ok (.init v)) (hv : v.toNat < 6) :
    LeavesError (.command cmd d) := by
  obtain ⟨-, rfl, -⟩ := of_decode_eq_ok h
  exact .inl ⟨v, d, by rw [encode_init], hv⟩

end

theorem not_leavesError_iff {e : HostEvent} :
    ¬LeavesError e ↔ e ≠ .reset ∧ (∀ d, e ≠ .command 0x1000 d) ∧
      ∀ (v : BitVec 3) d, v.toNat < 6 → e ≠ .command (0x2000 ||| v.setWidth 16) d := by
  simp only [LeavesError, not_or, not_exists, not_and]
  exact ⟨fun ⟨hinit, hclear, hreset⟩ => ⟨hreset, hclear, fun v d hv he => hinit v d he hv⟩,
    fun ⟨hreset, hclear, hinit⟩ => ⟨fun v d he hv => hinit v d hv he, hclear, hreset⟩⟩

theorem handleEvent_clear (d : Lane) (s : State) :
    handleEvent (.command 0x1000 d) s = .next (s.cleared.answered 0) :=
  (transact_of_legal (decode_clear d) s).trans (exec_clear s)

theorem exists_handleEvent_init {v : BitVec 3} (hv : v.toNat < 6) (d : Lane) (s : State) :
    ∃ w, handleEvent (.command (0x2000 ||| v.setWidth 16) d) s = .next ((s.started w).answered 0) := by
  obtain ⟨w, hw⟩ := exists_variantOfCode_eq_some hv
  exact ⟨w, (transact_of_legal (decode_init v d) s).trans (exec_init_of_variant hw s)⟩

section
variable {i : Instr} {e : HostEvent} {s t u : State}

/-- Each of the three ways out zeroes the lanes and ERR. -/
theorem handleEvent_of_leavesError (he : LeavesError e) (h : handleEvent e s = .next t) :
    t.phase ≠ .error ∧ t.lanes = zeroLanes ∧ t.err = 0 := by
  rcases he with ⟨v, d, rfl, hv⟩ | ⟨d, rfl⟩ | rfl
  · obtain ⟨w, hw⟩ := exists_handleEvent_init hv d s
    cases hw.symm.trans h
    exact ⟨by simp, rfl, rfl⟩
  · cases (handleEvent_clear d s).symm.trans h
    exact ⟨by simp, rfl, rfl⟩
  · cases (handleEvent_reset s).symm.trans h
    exact ⟨by simp, rfl, rfl⟩

theorem sameEngine_refl (s : State) : s.sameEngine s := ⟨rfl, rfl, rfl, rfl, rfl, rfl⟩

theorem sameEngine_trans (hst : s.sameEngine t) (htu : t.sameEngine u) : s.sameEngine u := by
  obtain ⟨hlanes, hvariant, hphase, hpos, houtcnt, herr⟩ := hst
  obtain ⟨hlanes', hvariant', hphase', hpos', houtcnt', herr'⟩ := htu
  exact ⟨hlanes'.trans hlanes, hvariant'.trans hvariant, hphase'.trans hphase, hpos'.trans hpos,
    houtcnt'.trans houtcnt, herr'.trans herr⟩

/-- A response alone is no part of the engine's state. -/
theorem sameEngine_answered (s : State) (v : Lane) : s.sameEngine (s.answered v) := sameEngine_refl s

/-- R224: in phase ERROR the fault entry changes the response only. -/
theorem sameEngine_faulted_of_error (hs : s.phase = .error) (c : FaultCode) : s.sameEngine (s.faulted c) :=
  ⟨rfl, rfl, hs.symm, rfl, rfl, if_pos hs⟩

/-- A command that completes in ERROR is an observer, CLEAR or INIT (R219). -/
theorem sameEngine_or_of_completes (hs : s.phase = .error) (h : Completes i s t) :
    s.sameEngine t ∨ i = .clear ∨ ∃ v, i = .init v ∧ v.toNat < 6 := by
  have hlegal := legalIn_of_completes h
  rw [hs] at hlegal
  cases i with
  | status =>
    cases h
    exact .inl (sameEngine_answered s _)
  | rdlane _ =>
    obtain ⟨_, -, rfl⟩ := h
    exact .inl (sameEngine_answered s _)
  | clear => exact .inr (.inl rfl)
  | init v =>
    have hvalid := of_decide_eq_false (invalidVariant_of_completes h)
    exact .inr (.inr ⟨v, rfl, Nat.lt_of_not_le hvalid⟩)
  | absorb _ | final | squeeze | permute | wrlane _ _ => cases hlegal

/-- In phase ERROR every other event leaves the engine's state as it is. -/
theorem sameEngine_of_not_leavesError (hs : s.phase = .error) (he : ¬LeavesError e)
    (h : handleEvent e s = .next t) : s.sameEngine t := by
  cases e with
  | command cmd d =>
    rcases transact_next h with ⟨_, -, rfl⟩ | ⟨i, hi, hexec⟩
    · exact sameEngine_faulted_of_error hs _
    rcases exec_next hexec with ⟨c, rfl, -⟩ | hcompletes
    · exact sameEngine_faulted_of_error hs c
    rcases sameEngine_or_of_completes hs hcompletes with hsame | rfl | ⟨v, rfl, hv⟩
    · exact hsame
    · exact absurd (leavesError_of_decode_clear hi) he
    · exact absurd (leavesError_of_decode_init hi hv) he
  | wait =>
    cases h
    exact sameEngine_refl s
  | reset => exact absurd (.inr (.inr rfl)) he

theorem phase_ne_error_iff_leavesError (hs : s.phase = .error) (h : handleEvent e s = .next t) :
    t.phase ≠ .error ↔ LeavesError e := by
  refine ⟨fun hne => by_contra fun he => hne ?_, fun he => (handleEvent_of_leavesError he h).1⟩
  obtain ⟨-, -, hphase, -⟩ := sameEngine_of_not_leavesError hs he h
  exact hphase.trans hs

end

/-- Settles O26: the three events set PHASE, the lanes and ERR, and any other leaves the engine's state as it is. -/
theorem errorPhaseIsLeftInThreeWays : Obligations.ErrorPhaseIsLeftInThreeWays := by
  intro e s t hs h
  have hiff := phase_ne_error_iff_leavesError hs h
  refine ⟨hiff, ?_, ?_, ?_, fun hne => ?_, fun herror => ?_⟩
  · rintro v d rfl hv
    obtain ⟨w, hw⟩ := exists_handleEvent_init hv d s
    cases hw.symm.trans h
    rfl
  · rintro d rfl
    cases (handleEvent_clear d s).symm.trans h
    rfl
  · rintro rfl
    cases (handleEvent_reset s).symm.trans h
    rfl
  · obtain ⟨-, hlanes, herr⟩ := handleEvent_of_leavesError (hiff.mp hne) h
    exact ⟨fun x y => hlanes ▸ laneAt_zeroLanes x y, herr⟩
  · obtain ⟨-, -, -, -, -, herr⟩ := sameEngine_of_not_leavesError hs (fun he => hiff.mpr he herror) h
    exact herr

/-! ## A dead computation (60_exceptions.md R223) -/

theorem mem_responsesTo_cons_iff {p : HostEvent → Bool} {e : HostEvent} {es : List HostEvent}
    {o : Option Response} {rs : List (Option Response)} {r : Response} :
    r ∈ responsesTo p (e :: es) (o :: rs) ↔ (p e = true ∧ o = some r) ∨ r ∈ responsesTo p es rs := by
  simp [responsesTo]

section
variable {i : Instr} {s t : State}

/-- Only commands of a running computation ask for the byte at POS. -/
theorem phase_of_asksForNoByte (h : AsksForNoByte i s) : s.phase = .absorb ∨ s.phase = .squeeze := by
  cases i with
  | absorb _ | final =>
    obtain ⟨hphase, -⟩ := h
    exact .inl hphase
  | squeeze =>
    obtain ⟨hphase, -⟩ := h
    exact .inr hphase
  | status | clear | init _ | permute | rdlane _ | wrlane _ _ => exact h.elim

theorem exists_exec_of_error (hs : s.phase = .error) (i : Instr) : ∃ t, exec i s = .next t := by
  rcases exec_cases i s with ⟨_, h, -⟩ | ⟨_, h, -⟩ | ⟨-, hasks⟩
  · exact ⟨_, h⟩
  · exact ⟨_, h⟩
  · rcases phase_of_asksForNoByte hasks with hphase | hphase <;> cases hs.symm.trans hphase

theorem exists_handleEvent_of_error (hs : s.phase = .error) (e : HostEvent) :
    ∃ t, handleEvent e s = .next t := by
  cases e with
  | command cmd d =>
    cases hdecode : decode cmd d with
    | error _ => exact ⟨_, transact_of_illegal hdecode s⟩
    | ok i =>
      obtain ⟨t, ht⟩ := exists_exec_of_error hs i
      exact ⟨t, (transact_of_legal hdecode s).trans ht⟩
  | wait => exact ⟨_, rfl⟩
  | reset => exact ⟨_, rfl⟩

/-- R219: outside its legal phases a command is refused with ERR_SEQ. -/
theorem rsp_of_not_legalIn {cmd : BitVec 16} {d : Lane} (hi : decode cmd d = .ok i)
    (hlegal : legalIn i s.phase = false) (h : transact cmd d s = .next t) : t.rsp = some ⟨0, 3⟩ := by
  have hcode := reportedCode_of_not_legalIn hi hlegal
  rw [eq_afterFault_of_reportedCode_ne_zero h (by simp [hcode]), hcode]

end

/-- From ERROR to ERROR: every event short of the three ways out is served and changes nothing, and whatever is not
legal in ERROR is refused. -/
theorem exists_serve_of_error {es : List HostEvent} {s : State} (hs : s.phase = .error)
    (hes : ∀ e ∈ es, ¬LeavesError e) :
    ∃ t rs, serve es s = some (t, rs) ∧ s.sameEngine t ∧
      ∀ cmd d i, decode cmd d = .ok i → legalIn i .error = false →
        ∀ r ∈ responsesTo (fun e => e == .command cmd d) es rs, r = ⟨0, 3⟩ := by
  induction es generalizing s with
  | nil => exact ⟨s, [], rfl, sameEngine_refl s, by simp [responsesTo]⟩
  | cons e es ih =>
    obtain ⟨he, hrest⟩ := List.forall_mem_cons.mp hes
    obtain ⟨u, hu⟩ := exists_handleEvent_of_error hs e
    have hsame := sameEngine_of_not_leavesError hs he hu
    have ⟨_, _, hphase, _⟩ := hsame
    obtain ⟨t, rs, hserve, ht, hrefused⟩ := ih (hphase.trans hs) hrest
    refine ⟨t, u.rsp :: rs, serve_cons_eq_some_iff.mpr ⟨u, rs, hu, hserve, rfl⟩, sameEngine_trans hsame ht,
      fun cmd d i hi hlegal r hr => ?_⟩
    rcases mem_responsesTo_cons_iff.mp hr with ⟨heq, hrsp⟩ | hr'
    · obtain rfl := eq_of_beq heq
      exact Option.some.inj (hrsp.symm.trans (rsp_of_not_legalIn hi (hs ▸ hlegal) hu))
    · exact hrefused cmd d i hi hlegal r hr'

/-- Settles O27: the events named are those that do not leave ERROR, and the commands named are not legal in ERROR. -/
theorem noOutputAfterAFault : Obligations.NoOutputAfterAFault := by
  intro es s hs hes
  obtain ⟨t, rs, hserve, hsame, hrefused⟩ :=
    exists_serve_of_error hs fun e he => not_leavesError_iff.mpr (hes e he)
  refine ⟨t, rs, hserve, hsame, fun cmd d i hi hform => hrefused cmd d i hi ?_⟩
  rcases hform with rfl | rfl | rfl | ⟨_, rfl⟩ | ⟨_, _, rfl⟩ <;> rfl

end Sys2Proof.Machine

namespace Sys2Proof

/-! ## The write datum (30_encoding.md R79) -/

/-- A command that is unchanged by the datum `d` carries it, or has none and is encoded with zero. -/
theorem encodeData_of_withDatum_eq {i : Instr} {d : Lane} (h : i.withDatum d = i) :
    encodeData i = d ∨ encodeData i = 0 := by
  cases i with
  | wrlane k e =>
    obtain ⟨-, rfl⟩ := Instr.wrlane.inj h
    exact .inl rfl
  | status | clear | init _ | absorb _ | final | squeeze | permute | rdlane _ => exact .inr rfl

/-- The datum enters the decoding of opcode 8 only. -/
theorem decode_congr_datum {cmd : BitVec 16} (h : opcField cmd ≠ 8) (d e : Lane) : decode cmd d = decode cmd e := by
  have h8 : (opcField cmd).toNat ≠ 8 := fun h8 => h (BitVec.eq_of_toNat_eq h8)
  unfold decode
  split
  · rfl
  · split
    case h_9 hopc => exact absurd hopc h8
    all_goals rfl

/-- Settles O1: a well-formed command's word decodes to the command with the datum that came with it, and a command's
own datum leaves the command as it is. -/
theorem decodeInvertsEncode : Obligations.DecodeInvertsEncode := by
  refine ⟨fun i hi => ?_, fun cmd d i h => ?_⟩
  · rw [decode_encode hi, Machine.withDatum_encodeData]
  · obtain ⟨hwf, hcmd, hdatum⟩ := of_decode_eq_ok h
    exact ⟨hwf, hcmd, encodeData_of_withDatum_eq hdatum⟩

end Sys2Proof

namespace Sys2Proof.Machine

/-- Settles O3: the transaction sees the datum through the decoding only. -/
theorem writeDatumIsIgnoredByAllButWrlane : Obligations.WriteDatumIsIgnoredByAllButWrlane := by
  intro cmd d e s hopc
  have hdecode := decode_congr_datum hopc d e
  exact ⟨hdecode, by rw [transact, hdecode, transact]⟩

/-- Settles O5: each word but the last is the encoding of its command. -/
theorem exampleWordsDecode : Obligations.ExampleWordsDecode :=
  ⟨decode_status 0, decode_clear 0, decode_init 5 0, decode_absorb 0x61 0, decode_final 0, decode_squeeze 0,
    decode_permute 0, decode_rdlane (i := 24) (by decide) 0, decode_wrlane (i := 16) (by decide) 7, rfl⟩

/-! ## The step serves the oldest pending event (20_memory.md R62) -/

theorem step_of_pending_cons {s : State} {e : HostEvent} {es : List HostEvent} (h : s.pending = e :: es) :
    step s = handleEvent e { s with pending := es } := by
  rw [step, servePort, h]

theorem step_of_pending_nil {s : State} (h : s.pending = []) : step s = .next (takeWait s) := by
  rw [step, servePort, h]

/-- Settles O6: the event taken is a command, legal or illegal, a reset or a wait, or there is none. -/
theorem stepRunsTheDecodedCommand : Obligations.StepRunsTheDecodedCommand := by
  refine ⟨fun s cmd d es i h hi => ?_, fun s cmd d es e h he => ?_, fun s es h => ?_, fun s es h => ?_,
    fun s h => step_of_pending_nil h⟩
  · exact (step_of_pending_cons h).trans (transact_of_legal hi _)
  · exact (step_of_pending_cons h).trans (transact_of_illegal he _)
  · exact (step_of_pending_cons h).trans (handleEvent_reset _)
  · exact step_of_pending_cons h

theorem handleEvent_pending {e : HostEvent} {s t : State} (h : handleEvent e s = .next t) :
    t.pending = s.pending := by
  cases e with
  | command cmd d =>
    rcases transact_next h with ⟨_, -, rfl⟩ | ⟨i, -, hexec⟩
    · rfl
    · exact exec_pending hexec
  | wait | reset =>
    cases h
    rfl

/-- The engine's part, the response and the list of pending events make up the state. -/
theorem eq_withPending_of_sameEngine {s t : State} (h : s.sameEngine t) (hrsp : t.rsp = s.rsp) :
    t = { s with pending := t.pending } := by
  obtain ⟨hlanes, hvariant, hphase, hpos, houtcnt, herr⟩ := h
  rw [← hlanes, ← hvariant, ← hphase, ← hpos, ← houtcnt, ← herr, ← hrsp]

/-- What is pending is carried through an event and does not enter it. -/
theorem handleEvent_withPending {e : HostEvent} {s t : State} (h : handleEvent e s = .next t)
    (es : List HostEvent) :
    handleEvent e { s with pending := es } = .next { t with pending := es } := by
  have hsame : s.sameEngine { s with pending := es } := sameEngine_refl s
  obtain ⟨t', ht', hrsp, hsame'⟩ := answersAlike_handleEvent hsame e t h
  have hpending : t'.pending = es := handleEvent_pending ht'
  rw [ht', eq_withPending_of_sameEngine hsame' hrsp, hpending]

theorem run_succ_of_step_eq_next {M : Host.Core} {s t : M.State} (h : M.step s = .next t) (k : Nat) :
    M.run (k + 1) s = M.run k t := by
  rw [Host.Core.run, h]

/-- Settles O7, by induction on the events: each step takes the first of the pending ones and keeps the others. -/
theorem servingIsRunningTheStep : Obligations.ServingIsRunningTheStep := by
  intro es
  induction es with
  | nil =>
    rintro s _ _ ⟨⟩
    rfl
  | cons e es ih =>
    intro s u rs hserve
    obtain ⟨t, rs', ht, hrest, -⟩ := serve_cons_eq_some_iff.mp hserve
    have hpending : t.pending = [] := handleEvent_pending ht
    have hkeep : { t with pending := [] } = t := by rw [← hpending]
    have hstep : core.step ({ s with pending := e :: es } : State) = .next ({ t with pending := es } : State) :=
      (step_of_pending_cons (s := { s with pending := e :: es }) rfl).trans (handleEvent_withPending ht es)
    exact (run_succ_of_step_eq_next hstep es.length).trans (ih t u rs' (hkeep.symm ▸ hrest))

end Sys2Proof.Machine

namespace Sys2Proof.Machine

/-! ## The invariant of every reachable state (10_state.md R38) -/

/-! What R38 asks of a state in each phase. -/

section
variable {s t : State}

theorem inv_of_idle (hphase : s.phase = .idle) (hvariant : s.variant = .sha3_224) (hpos : s.pos = 0)
    (houtcnt : s.outcnt = 0) (herr : s.err = 0) : s.Inv := by
  simp [State.Inv, hphase, hvariant, hpos, houtcnt, herr]

theorem inv_of_absorb (hphase : s.phase = .absorb) (hpos : s.pos.toNat < rate s.variant) (houtcnt : s.outcnt = 0)
    (herr : s.err = 0) : s.Inv := by
  have hmax : s.pos.toNat ≤ 168 := hpos.le.trans (rate_le s.variant)
  simp [State.Inv, hphase, hpos, houtcnt, herr, hmax]

theorem inv_of_squeeze (hphase : s.phase = .squeeze) (hpos : s.pos.toNat ≤ rate s.variant) (herr : s.err = 0)
    (hfits : s.countFits = true) (houtcnt : s.outcnt.toNat ≤ 64) : s.Inv := by
  have hmax : s.pos.toNat ≤ 168 := hpos.trans (rate_le s.variant)
  simp [State.Inv, hphase, hpos, herr, hfits, houtcnt, hmax]

/-- R38 speaks of the control registers only. -/
theorem inv_congr (hvariant : t.variant = s.variant) (hphase : t.phase = s.phase) (hpos : t.pos = s.pos)
    (houtcnt : t.outcnt = s.outcnt) (herr : t.err = s.err) (h : s.Inv) : t.Inv := by
  simpa only [State.Inv, State.countFits, hvariant, hphase, hpos, houtcnt, herr] using h

/-- The fault entry sets PHASE to ERROR and ERR to a code, or keeps the code that is there. -/
theorem inv_faulted (h : s.Inv) (c : FaultCode) : (s.faulted c).Inv := by
  obtain ⟨-, -, -, herror, herr, hpos, houtcnt⟩ := h
  have hcode : (s.faulted c).err ≠ 0 ∧ (s.faulted c).err.toNat ≤ 4 := by
    rw [faulted_err]
    split
    case isTrue hphase => exact ⟨herror.mp hphase, herr⟩
    case isFalse => exact ⟨faultCode_ne_zero c, faultCode_toNat_le c⟩
  obtain ⟨hne, hle⟩ := hcode
  exact ⟨by simp, by simp, by simp, iff_of_true (faulted_phase s c) hne, hle, hpos, houtcnt⟩

/-- OUTCNT and POS go up together while a fixed variant delivers: its DLEN bytes fit in one block. -/
theorem squeezed_refilled_of_fixed {k : Nat} (hk : dlen s.variant = some k) (hlt : s.outcnt.toNat < k)
    (hpos : s.pos.toNat = s.outcnt.toNat) :
    s.refilled.squeezed.outcnt.toNat = s.outcnt.toNat + 1 ∧ s.refilled.squeezed.pos.toNat = s.outcnt.toNat + 1 := by
  have ⟨hblock, hmax⟩ := dlen_le_rate hk
  refine ⟨squeezed_refilled_outcnt_of_fixed hk hlt, ?_⟩
  rw [squeezed_pos, refilled_of_ne s (by omega), BitVec.toNat_add_of_lt (by rw [hpos]; simp; omega), hpos]
  rfl

theorem inv_squeezed_refilled (h : s.Inv) (hphase : s.phase = .squeeze) (hdelivered : s.delivered = false) :
    s.refilled.squeezed.Inv := by
  obtain ⟨-, -, hsqueeze, -⟩ := h
  obtain ⟨hpos, herr, hfits⟩ := hsqueeze hphase
  have hvariant : s.refilled.squeezed.variant = s.variant := by simp
  have hcount : s.refilled.squeezed.countFits = true ∧ s.refilled.squeezed.outcnt.toNat ≤ 64 := by
    unfold State.countFits at hfits ⊢
    rw [hvariant]
    cases hk : dlen s.variant with
    | none =>
      rw [squeezed_refilled_outcnt_of_xof hk]
      simp_all
    | some k =>
      have hmore : s.outcnt.toNat ≠ k := fun heq => by
        rw [← heq] at hk
        simp [delivered_eq_true_iff.mpr hk] at hdelivered
      have hmax := (dlen_le_rate hk).2
      simp only [hk, Bool.and_eq_true, decide_eq_true_eq] at hfits ⊢
      obtain ⟨hle, heq⟩ := hfits
      obtain ⟨houtcnt', hpos'⟩ := squeezed_refilled_of_fixed hk (by omega) heq
      omega
  obtain ⟨hfits', hmax⟩ := hcount
  exact inv_of_squeeze (by simp [hphase]) (hvariant ▸ squeezed_refilled_pos_le_rate hpos) (by simp [herr]) hfits' hmax

/-- ABSORB wraps at the end of the block, so POS stays inside it (R132). -/
theorem absorbed_pos_lt_rate (hpos : s.pos.toNat < rate s.variant) (b : Byte) :
    (s.absorbed b).pos.toNat < rate s.variant := by
  by_cases hfull : s.pos.toNat + 1 = rate s.variant
  · rw [absorbed_of_eq s hfull]
    exact Nat.lt_of_le_of_lt (Nat.zero_le _) hpos
  · have hmax := rate_le s.variant
    rw [absorbed_of_ne s hfull (by omega), BitVec.toNat_add_of_lt (by simp; omega)]
    exact Nat.lt_of_le_of_ne hpos hfull

theorem inv_of_completes {i : Instr} (h : s.Inv) (hc : Completes i s t) : t.Inv := by
  have ⟨_, habsorb, _⟩ := h
  cases i with
  | status =>
    cases hc
    exact inv_congr rfl rfl rfl rfl rfl h
  | clear =>
    cases hc
    exact inv_of_idle rfl rfl rfl rfl rfl
  | init v =>
    obtain ⟨w, -, rfl⟩ := hc
    exact inv_of_absorb rfl (Nat.lt_of_lt_of_le (Nat.zero_lt_succ _) (rate_ge w)) rfl rfl
  | absorb b =>
    obtain ⟨hphase, -, rfl⟩ := hc
    obtain ⟨hpos, houtcnt, herr⟩ := habsorb hphase
    exact inv_of_absorb (by simp [hphase]) (by simpa using absorbed_pos_lt_rate hpos b) (by simp [houtcnt])
      (by simp [herr])
  | final =>
    obtain ⟨hphase, -, rfl⟩ := hc
    obtain ⟨-, -, herr⟩ := habsorb hphase
    have hfits : s.finished.countFits = true := by cases hv : s.variant <;> simp [State.countFits, hv, dlen]
    exact inv_of_squeeze rfl (Nat.zero_le _) herr hfits (Nat.zero_le _)
  | squeeze =>
    obtain ⟨hphase, hdelivered, _, -, rfl⟩ := hc
    exact inv_congr rfl rfl rfl rfl rfl (inv_squeezed_refilled h hphase hdelivered)
  | permute =>
    obtain ⟨-, rfl⟩ := hc
    exact inv_congr rfl rfl rfl rfl rfl h
  | rdlane _ =>
    obtain ⟨_, -, rfl⟩ := hc
    exact inv_congr rfl rfl rfl rfl rfl h
  | wrlane _ _ =>
    obtain ⟨_, -, -, rfl⟩ := hc
    exact inv_congr rfl rfl rfl rfl rfl h

theorem inv_of_transact {cmd : BitVec 16} {d : Lane} (h : s.Inv) (ht : transact cmd d s = .next t) : t.Inv := by
  rcases transact_next ht with ⟨_, -, rfl⟩ | ⟨i, -, hexec⟩
  · exact inv_faulted h _
  · rcases exec_next hexec with ⟨c, rfl, -⟩ | hcompletes
    · exact inv_faulted h c
    · exact inv_of_completes h hcompletes

theorem inv_of_handleEvent {e : HostEvent} (h : s.Inv) (ht : handleEvent e s = .next t) : t.Inv := by
  cases e with
  | command cmd d => exact inv_of_transact h ht
  | wait =>
    cases ht
    exact inv_congr rfl rfl rfl rfl rfl h
  | reset =>
    cases ht
    exact inv_of_idle rfl rfl rfl rfl rfl

end

/-- Settles O30: the reset state is in IDLE with the reset control registers. -/
theorem resetMeetsTheInvariant : Obligations.ResetMeetsTheInvariant :=
  inv_of_idle rfl rfl rfl rfl rfl

/-- Settles O31: a step serves the oldest pending event, or waits, and each event keeps the invariant. -/
theorem stepKeepsTheInvariant : Obligations.StepKeepsTheInvariant := by
  intro s t h ht
  cases hpending : s.pending with
  | nil =>
    cases (step_of_pending_nil hpending).symm.trans ht
    exact inv_congr rfl rfl rfl rfl rfl h
  | cons e es =>
    have hserved : State.Inv { s with pending := es } := inv_congr rfl rfl rfl rfl rfl h
    exact inv_of_handleEvent hserved ((step_of_pending_cons hpending).symm.trans ht)

/-! ## Every command is answered (30_encoding.md R75) -/

section
variable {s : State}

/-- In a state of the invariant, the byte a command asks for exists. -/
theorem not_asksForNoByte_of_inv (h : s.Inv) (i : Instr) : ¬AsksForNoByte i s := by
  obtain ⟨-, -, hsqueeze, -, -, hpos, -⟩ := h
  intro hasks
  cases i with
  | absorb _ | final =>
    obtain ⟨-, hhigh⟩ := hasks
    omega
  | squeeze =>
    obtain ⟨hphase, -, hhigh⟩ := hasks
    have hinside := refilled_pos_lt_rate (hsqueeze hphase).1
    have hmax := rate_le s.variant
    omega
  | status | clear | init _ | permute | rdlane _ | wrlane _ _ => exact hasks

theorem exists_transact_of_inv (h : s.Inv) (cmd : BitVec 16) (d : Lane) :
    ∃ t r, transact cmd d s = .next t ∧ t.rsp = some r ∧ t.Inv := by
  have hnext : ∃ t, transact cmd d s = .next t := by
    cases hdecode : decode cmd d with
    | error _ => exact ⟨_, transact_of_illegal hdecode s⟩
    | ok i =>
      rw [transact_of_legal hdecode]
      rcases exec_cases i s with ⟨_, hexec, -⟩ | ⟨_, hexec, -⟩ | ⟨-, hasks⟩
      · exact ⟨_, hexec⟩
      · exact ⟨_, hexec⟩
      · exact absurd hasks (not_asksForNoByte_of_inv h i)
  obtain ⟨t, ht⟩ := hnext
  obtain ⟨⟨r, hr, -⟩, -⟩ := reportedFaultIsTheFirstThatApplies cmd d s t ht
  exact ⟨t, r, ht, hr, inv_of_transact h ht⟩

theorem exists_handleEvent_of_inv (h : s.Inv) (e : HostEvent) : ∃ t, handleEvent e s = .next t ∧ t.Inv := by
  have hnext : ∃ t, handleEvent e s = .next t := by
    cases e with
    | command cmd d =>
      obtain ⟨t, _, ht, -⟩ := exists_transact_of_inv h cmd d
      exact ⟨t, ht⟩
    | wait | reset => exact ⟨_, rfl⟩
  obtain ⟨t, ht⟩ := hnext
  exact ⟨t, ht, inv_of_handleEvent h ht⟩

theorem exists_serve_of_inv (h : s.Inv) (es : List HostEvent) : ∃ t rs, serve es s = some (t, rs) ∧ t.Inv := by
  induction es generalizing s with
  | nil => exact ⟨s, [], rfl, h⟩
  | cons e es ih =>
    obtain ⟨u, hu, huInv⟩ := exists_handleEvent_of_inv h e
    obtain ⟨t, rs, hserve, htInv⟩ := ih huInv
    exact ⟨t, u.rsp :: rs, serve_cons_eq_some_iff.mpr ⟨u, rs, hu, hserve, rfl⟩, htInv⟩

end

/-- Settles O32: the invariant keeps POS inside the byte space, so the model does not stop, and events keep the
invariant. -/
theorem everyCommandIsAnswered : Obligations.EveryCommandIsAnswered := by
  refine ⟨fun s h cmd d => exists_transact_of_inv h cmd d, fun es => ?_⟩
  obtain ⟨s, rs, hserve, hs⟩ := exists_serve_of_inv resetMeetsTheInvariant es
  refine ⟨s, rs, hserve, fun cmd d => ?_⟩
  obtain ⟨t, r, ht, hr, -⟩ := exists_transact_of_inv hs cmd d
  exact ⟨t, r, ht, hr⟩

end Sys2Proof.Machine

namespace Sys2Proof.Machine

/-! ## Where the model stops (20_memory.md R50) -/

section
variable {s : State}

theorem exec_absorb_of_pos_ge (h : s.phase = .absorb) (hpos : 200 ≤ s.pos.toNat) (b : Byte) :
    exec (.absorb b) s = .fault .noSuchByte :=
  (if_pos h).trans (dif_neg (Nat.not_lt.mpr hpos))

theorem exec_final_of_pos_ge (h : s.phase = .absorb) (hpos : 200 ≤ s.pos.toNat) :
    exec .final s = .fault .noSuchByte :=
  (if_pos h).trans (dif_neg (Nat.not_lt.mpr hpos))

/-- The lazy permutation does not bring such a POS back, which is above every rate. -/
theorem exec_squeeze_of_pos_ge (h : s.phase = .squeeze) (hpos : 200 ≤ s.pos.toNat)
    (hdlen : dlen s.variant ≠ some s.outcnt.toNat) : exec .squeeze s = .fault .noSuchByte := by
  have hmax := rate_le s.variant
  have hbyte : ¬s.refilled.pos.toNat < 200 := by
    rw [refilled_of_ne s (by omega)]
    omega
  exact (if_pos h).trans <| (if_neg (mt delivered_eq_true_iff.mp hdlen)).trans (dif_neg hbyte)

/-- The position after the lazy permutation is POS or 0. -/
theorem refilled_pos_le (s : State) : s.refilled.pos.toNat ≤ s.pos.toNat := by
  by_cases hfull : s.pos.toNat = rate s.variant
  · rw [refilled_of_eq s hfull]
    exact Nat.zero_le _
  · rw [refilled_of_ne s hfull]

theorem pos_ge_of_asksForNoByte {i : Instr} (h : AsksForNoByte i s) :
    200 ≤ s.pos.toNat ∧ ((∃ b, i = .absorb b) ∨ i = .final ∨ i = .squeeze) := by
  cases i with
  | absorb b =>
    obtain ⟨-, hhigh⟩ := h
    exact ⟨hhigh, .inl ⟨b, rfl⟩⟩
  | final =>
    obtain ⟨-, hhigh⟩ := h
    exact ⟨hhigh, .inr (.inl rfl)⟩
  | squeeze =>
    obtain ⟨-, -, hhigh⟩ := h
    exact ⟨hhigh.trans (refilled_pos_le s), .inr (.inr rfl)⟩
  | status | clear | init _ | permute | rdlane _ | wrlane _ _ => exact h.elim

end

/-- Settles O9: a command raises a fault of the engine, completes, or asks for a byte that is not there. -/
theorem stopsOnlyWhereNoByteIs : Obligations.StopsOnlyWhereNoByteIs := by
  refine fun i s => ⟨fun r hr => ?_, fun r hr => ?_, fun hphase hpos b =>
    ⟨exec_absorb_of_pos_ge hphase hpos b, exec_final_of_pos_ge hphase hpos⟩, exec_squeeze_of_pos_ge⟩
  · rcases exec_cases i s with ⟨_, hexec, -⟩ | ⟨_, hexec, -⟩ | ⟨hexec, -⟩ <;> cases hexec.symm.trans hr
  · rcases exec_cases i s with ⟨_, hexec, -⟩ | ⟨_, hexec, -⟩ | ⟨hexec, hasks⟩ <;> cases hexec.symm.trans hr
    exact ⟨rfl, pos_ge_of_asksForNoByte hasks⟩

/-! ## The memory primitives (00_scope.md R12) -/

/-- The library's lemma stops one bit short of the top byte. -/
theorem extractLsb'_not (v : Lane) {k w : Nat} (h : k + w ≤ 64) :
    (~~~v).extractLsb' k w = ~~~v.extractLsb' k w := by
  ext n hn
  have hbit : k + n < 64 := by omega
  simp [hbit]

/-- Byte `k` of a lane after byte `j` was replaced. -/
theorem extractLsb'_replaceByte (v : Lane) (b : Byte) {j k : Nat} (hj : j < 8) (hk : k < 8) :
    ((v &&& ~~~((0xFF : Lane) <<< (8 * j))) ||| (b.setWidth 64 <<< (8 * j))).extractLsb' (8 * k) 8 =
      if k = j then b else v.extractLsb' (8 * k) 8 := by
  have hones : (0xFF : Lane) = (BitVec.allOnes 8).setWidth 64 := rfl
  rw [hones, BitVec.extractLsb'_or, BitVec.extractLsb'_and, extractLsb'_not _ (by omega)]
  by_cases hkj : k = j
  · subst hkj
    rw [extractLsb'_shiftLeft_same _ (by omega), extractLsb'_shiftLeft_same _ (by omega)]
    simp
  · rw [extractLsb'_shiftLeft_apart _ (by omega), extractLsb'_shiftLeft_apart _ (by omega)]
    rw [if_neg hkj, BitVec.or_zero]
    exact BitVec.and_allOnes

theorem memRead_setLane (A : Lanes) (i : Fin 25) (v : Lane) (q : Fin 200) :
    memRead (setLane A i v) q =
      if q.val / 8 = i.val then v.extractLsb' (8 * (q.val % 8)) 8 else memRead A q := by
  have hlane : laneOfByte q = i ↔ q.val / 8 = i.val := Fin.ext_iff
  rw [memRead_eq_extractLsb', lane_setLane]
  simp only [hlane]
  split
  · rfl
  · rw [memRead_eq_extractLsb']

theorem memRead_memWrite (A : Lanes) (p q : Fin 200) (v : Byte) :
    memRead (memWrite A p v) q = if q = p then v else memRead A q := by
  have hindex : (laneOfByte p).val = p.val / 8 := rfl
  rw [memWrite, memRead_setLane, hindex]
  by_cases hlane : q.val / 8 = p.val / 8
  · have hsame : laneOfByte p = laneOfByte q := Fin.ext hlane.symm
    have hbyte : q.val % 8 = p.val % 8 ↔ q = p := by
      rw [Fin.ext_iff]
      omega
    rw [if_pos hlane, byteShift,
      extractLsb'_replaceByte _ _ (Nat.mod_lt _ (by decide)) (Nat.mod_lt _ (by decide))]
    simp only [hbyte, memRead_eq_extractLsb', hsame]
  · have hne : q ≠ p := fun h => hlane (by rw [h])
    rw [if_neg hlane, if_neg hne]

/-- Settles O35: a lane is joined from its eight bytes, so lanes with the same bytes are equal. -/
theorem bytesDetermineTheLanes : Obligations.BytesDetermineTheLanes := by
  intro A B h
  obtain ⟨-, hjoin, -⟩ := byteViewOfTheLanes
  refine lanes_ext_index fun i => ?_
  obtain ⟨S, hS⟩ : ∃ S : Fin 8 → Byte, ∀ k (p : Fin 200), p.val = 8 * i.val + k.val → S k = memRead A p :=
    ⟨fun k => memRead A ⟨8 * i.val + k.val, by omega⟩, fun k p hp => congrArg (memRead A) (Fin.ext hp.symm)⟩
  rw [hjoin A i S hS, hjoin B i S fun k p hp => (hS k p hp).trans (h p)]

theorem memXor_eq_memWrite (A : Lanes) (p : Fin 200) (v : Byte) :
    memXor A p.val v = memWrite A p (memRead A p ^^^ v) := by
  refine bytesDetermineTheLanes _ _ fun q => ?_
  simp only [memRead_memXor, memRead_memWrite, ← Fin.ext_iff]
  split
  case isTrue h => rw [h]
  case isFalse => rfl

/-- Settles O34: a byte write replaces one byte of its lane, and the two ways of changing a byte agree at every
byte. -/
theorem memoryPrimitives : Obligations.MemoryPrimitives :=
  ⟨memRead_memWrite, memXor_eq_memWrite, memRead_setLane⟩

end Sys2Proof.Machine

namespace Sys2Proof.Machine

/-! ## The frame of a command that succeeds (10_state.md section 1) -/

section
variable {i : Instr} {s t : State}

theorem not_succeeded_faulted (s : State) (c : FaultCode) : ¬(s.faulted c).succeeded := by
  rintro ⟨v, hv⟩
  obtain ⟨-, hcode⟩ := Response.mk.inj (Option.some.inj hv)
  exact faultCode_ne_zero c hcode

/-- Of the two ways to answer, the one without a fault is the command's own effect. -/
theorem completes_of_succeeded (h : exec i s = .next t) (hsucc : t.succeeded) : Completes i s t := by
  rcases exec_next h with ⟨c, rfl, -⟩ | hcompletes
  · exact absurd hsucc (not_succeeded_faulted s c)
  · exact hcompletes

/-- ABSORB that does not fill its block stores to the byte at POS only. -/
theorem memRead_absorbed_of_ne {b : Byte} (hpos : s.pos.toNat < 200) (hne : s.pos.toNat + 1 ≠ rate s.variant)
    {a : Fin 200} (ha : a.val ≠ s.pos.toNat) : memRead (s.absorbed b).lanes a = memRead s.lanes a := by
  rw [absorbed_of_ne s hne (by omega), memRead_memXor, if_neg ha]

end

/-- Settles O19: a command that succeeds has its own effect, which is a named update of the state, and ABSORB and
WRLANE store to the bytes named. -/
theorem commandsChangeOnlyWhatTheyWrite : Obligations.CommandsChangeOnlyWhatTheyWrite := by
  intro i s t h hsucc
  refine ⟨exec_pending h, ?_⟩
  have hc := completes_of_succeeded h hsucc
  cases i with
  | status =>
    cases hc
    exact sameEngine_answered s _
  | rdlane _ =>
    obtain ⟨_, -, rfl⟩ := hc
    exact sameEngine_answered s _
  | clear | init _ => trivial
  | absorb b =>
    obtain ⟨-, hpos, rfl⟩ := hc
    exact ⟨absorbed_variant s b, absorbed_phase s b, absorbed_outcnt s b, absorbed_err s b,
      fun hne a ha => memRead_absorbed_of_ne hpos hne ha⟩
  | final =>
    obtain ⟨-, -, rfl⟩ := hc
    exact ⟨rfl, rfl⟩
  | squeeze =>
    obtain ⟨-, -, _, -, rfl⟩ := hc
    refine ⟨by simp, by simp, by simp, squeezed_refilled_outcnt_of_xof, fun hne a => ?_⟩
    rw [answered_lanes, squeezed_lanes, refilled_of_ne s hne]
  | permute =>
    obtain ⟨-, rfl⟩ := hc
    exact ⟨rfl, rfl, rfl, rfl, rfl⟩
  | wrlane k d =>
    obtain ⟨j, hj, -, rfl⟩ := hc
    refine ⟨rfl, rfl, rfl, rfl, rfl, fun a ha => ?_⟩
    rw [answered_lanes, memRead_setLane, if_neg (hj ▸ ha)]

/-! ## Who writes the control registers (10_state.md section 2) -/

section
variable {i : Instr} {s t : State}

theorem absorbed_pos (s : State) (b : Byte) : (s.absorbed b).pos = s.pos + 1 ∨ (s.absorbed b).pos = 0 := by
  simp only [State.absorbed]
  split
  · exact .inr rfl
  · exact .inl rfl

theorem squeezed_refilled_pos (s : State) :
    s.refilled.squeezed.pos = s.pos + 1 ∨ (s.pos.toNat = rate s.variant ∧ s.refilled.squeezed.pos = 1) := by
  by_cases hfull : s.pos.toNat = rate s.variant
  · rw [refilled_of_eq s hfull]
    exact .inr ⟨hfull, rfl⟩
  · rw [refilled_of_ne s hfull]
    exact .inl rfl

/-- What each command makes of VARIANT, POS, OUTCNT and ERR when it completes. -/
def RegistersAfter (i : Instr) (s t : State) : Prop :=
  match i with
  | .clear => variantCode t.variant = 0 ∧ t.pos = 0 ∧ t.outcnt = 0 ∧ t.err = 0
  | .init v => v = variantCode t.variant ∧ t.pos = 0 ∧ t.outcnt = 0 ∧ t.err = 0
  | .absorb _ =>
    t.variant = s.variant ∧ (t.pos = s.pos + 1 ∨ t.pos = 0) ∧ t.outcnt = s.outcnt ∧ t.err = s.err
  | .final => t.variant = s.variant ∧ t.pos = 0 ∧ t.outcnt = 0 ∧ t.err = s.err
  | .squeeze =>
    t.variant = s.variant ∧ (t.pos = s.pos + 1 ∨ (s.pos.toNat = rate s.variant ∧ t.pos = 1)) ∧
      t.outcnt = (if (variantCode s.variant).toNat ≤ 3 then s.outcnt + 1 else s.outcnt) ∧ t.err = s.err
  | .status | .permute | .rdlane _ | .wrlane _ _ =>
    t.variant = s.variant ∧ t.pos = s.pos ∧ t.outcnt = s.outcnt ∧ t.err = s.err

theorem registersAfter_of_completes (h : Completes i s t) : RegistersAfter i s t := by
  cases i with
  | clear =>
    cases h
    exact ⟨rfl, rfl, rfl, rfl⟩
  | init v =>
    obtain ⟨w, hw, rfl⟩ := h
    exact ⟨(variantCode_of hw).symm, rfl, rfl, rfl⟩
  | absorb b =>
    obtain ⟨-, -, rfl⟩ := h
    exact ⟨absorbed_variant s b, absorbed_pos s b, absorbed_outcnt s b, absorbed_err s b⟩
  | final =>
    obtain ⟨-, -, rfl⟩ := h
    exact ⟨rfl, rfl, rfl, rfl⟩
  | squeeze =>
    obtain ⟨-, -, _, -, rfl⟩ := h
    have hcount := squeezed_outcnt_eq (s := s.refilled)
    rw [refilled_variant, refilled_outcnt] at hcount
    exact ⟨refilled_variant s, squeezed_refilled_pos s, hcount, refilled_err s⟩
  | status =>
    cases h
    exact ⟨rfl, rfl, rfl, rfl⟩
  | permute =>
    obtain ⟨-, rfl⟩ := h
    exact ⟨rfl, rfl, rfl, rfl⟩
  | rdlane _ =>
    obtain ⟨_, -, rfl⟩ := h
    exact ⟨rfl, rfl, rfl, rfl⟩
  | wrlane _ _ =>
    obtain ⟨_, -, -, rfl⟩ := h
    exact ⟨rfl, rfl, rfl, rfl⟩

theorem variant_of_registersAfter (h : RegistersAfter i s t) (hne : t.variant ≠ s.variant) :
    (i = .clear ∧ variantCode t.variant = 0) ∨ i = .init (variantCode t.variant) := by
  cases i with
  | clear => exact .inl ⟨rfl, h.1⟩
  | init v => exact .inr (congrArg Instr.init h.1)
  | status | absorb _ | final | squeeze | permute | rdlane _ | wrlane _ _ => exact absurd h.1 hne

/-- The table of R157 with the legal phases of R219: three commands change PHASE. -/
theorem phase_change_of_completes (h : Completes i s t) (hne : t.phase ≠ s.phase) :
    (t.phase = .absorb ∧ ∃ v, i = .init v) ∨ (t.phase = .squeeze ∧ i = .final) ∨
      (t.phase = .idle ∧ i = .clear) := by
  have hlegal := legalIn_of_completes h
  rw [phase_of_completes h] at hne ⊢
  cases i with
  | init v => exact .inl ⟨rfl, v, rfl⟩
  | final => exact .inr (.inl ⟨rfl, rfl⟩)
  | clear => exact .inr (.inr ⟨rfl, rfl⟩)
  | status | rdlane _ => exact absurd rfl hne
  | absorb _ | squeeze | permute | wrlane _ _ => exact absurd (of_decide_eq_true hlegal).symm hne

theorem pos_of_registersAfter (h : RegistersAfter i s t) (hne : t.pos ≠ s.pos) :
    ((∃ b, i = .absorb b) ∧ (t.pos = s.pos + 1 ∨ t.pos = 0)) ∨
      (i = .squeeze ∧ (t.pos = s.pos + 1 ∨ (s.pos.toNat = rate s.variant ∧ t.pos = 1))) ∨
      (t.pos = 0 ∧ (i = .final ∨ i = .clear ∨ ∃ v, i = .init v)) := by
  cases i <;> obtain ⟨-, hpos, -⟩ := h
  case absorb b => exact .inl ⟨⟨b, rfl⟩, hpos⟩
  case squeeze => exact .inr (.inl ⟨rfl, hpos⟩)
  case final => exact .inr (.inr ⟨hpos, .inl rfl⟩)
  case clear => exact .inr (.inr ⟨hpos, .inr (.inl rfl)⟩)
  case init v => exact .inr (.inr ⟨hpos, .inr (.inr ⟨v, rfl⟩)⟩)
  case status | permute | rdlane | wrlane => exact absurd hpos hne

theorem outcnt_of_registersAfter (h : RegistersAfter i s t) (hne : t.outcnt ≠ s.outcnt) :
    (i = .squeeze ∧ (variantCode s.variant).toNat ≤ 3 ∧ t.outcnt = s.outcnt + 1) ∨
      (t.outcnt = 0 ∧ (i = .final ∨ i = .clear ∨ ∃ v, i = .init v)) := by
  cases i <;> obtain ⟨-, -, houtcnt, -⟩ := h
  case squeeze =>
    split at houtcnt
    case isTrue hfixed => exact .inl ⟨rfl, hfixed, houtcnt⟩
    case isFalse => exact absurd houtcnt hne
  case final => exact .inr ⟨houtcnt, .inl rfl⟩
  case clear => exact .inr ⟨houtcnt, .inr (.inl rfl)⟩
  case init v => exact .inr ⟨houtcnt, .inr (.inr ⟨v, rfl⟩)⟩
  case status | absorb | permute | rdlane | wrlane => exact absurd houtcnt hne

theorem err_of_registersAfter (h : RegistersAfter i s t) (hne : t.err ≠ s.err) :
    t.err = 0 ∧ (i = .clear ∨ ∃ v, i = .init v) := by
  cases i <;> obtain ⟨-, -, -, herr⟩ := h
  case clear => exact ⟨herr, .inl rfl⟩
  case init v => exact ⟨herr, .inr ⟨v, rfl⟩⟩
  case status | absorb | final | squeeze | permute | rdlane | wrlane => exact absurd herr hne

/-- The fault entry changes ERR outside ERROR only, and then to the code it reports (R224). -/
theorem err_of_faulted {c : FaultCode} (hne : (s.faulted c).err ≠ s.err) :
    s.phase ≠ .error ∧ (s.faulted c).rsp = some ⟨0, (s.faulted c).err⟩ := by
  have hphase : s.phase ≠ .error := fun h => hne ((faulted_err s c).trans (if_pos h))
  exact ⟨hphase, by rw [faulted_rsp, faulted_err, if_neg hphase]⟩

end

/-- Settles O20: a transaction is the fault entry, which touches PHASE and ERR only, or a command's own effect. -/
theorem registersChangeOnlyByTheirWriters : Obligations.RegistersChangeOnlyByTheirWriters := by
  intro cmd d s t h
  rcases transact_next_reported h with ⟨c, -, rfl⟩ | ⟨-, i, hi, hexec, hsucc⟩
  · exact ⟨fun hne => absurd rfl hne, fun _ => .inr ⟨rfl, _, faultCode_ne_zero c, rfl⟩, fun hne => absurd rfl hne,
      fun hne => absurd rfl hne, fun hne => .inl ⟨(err_of_faulted hne).1, rfl, (err_of_faulted hne).2⟩⟩
  · have hc := completes_of_succeeded hexec hsucc
    have hregs := registersAfter_of_completes hc
    simp only [hi, Except.ok.injEq]
    exact ⟨fun hne => ⟨hsucc, variant_of_registersAfter hregs hne⟩,
      fun hne => .inl ⟨hsucc, phase_change_of_completes hc hne⟩,
      fun hne => ⟨hsucc, pos_of_registersAfter hregs hne⟩, fun hne => ⟨hsucc, outcnt_of_registersAfter hregs hne⟩,
      fun hne => .inr ⟨hsucc, err_of_registersAfter hregs hne⟩⟩

/-! ## Reset and CLEAR (70_reset_and_hazards.md R251) -/

/-- Settles O29: CLEAR and reset leave the same architectural part, on which alone the later responses depend. -/
theorem clearCannotBeToldFromReset : Obligations.ClearCannotBeToldFromReset := by
  intro es d s s' t t' u rs hclear hreset hserve
  cases (handleEvent_clear d s).symm.trans hclear
  cases (handleEvent_reset s').symm.trans hreset
  have hsame : (s.cleared.answered 0).sameEngine (takeReset s') := sameEngine_cleared s s'
  exact responsesDependOnTheEngineAlone es _ _ u rs hsame hserve

end Sys2Proof.Machine

namespace Sys2Proof.Machine

/-! ## The rotation offsets (10_state.md R32) -/

theorem rhoOffset_lt (x y : Fin 5) : rhoOffset x y < 64 := by
  decide +revert

/-- The walk gives each of its positions the offset that the table has there. -/
theorem rhoOffset_rhoWalk : ∀ t < 24, rhoOffset (rhoWalk t).1 (rhoWalk t).2 = rhoWalkOffset t := by
  decide +kernel

theorem exists_rhoWalk_eq : ∀ x y : Fin 5, (x, y) ≠ (0, 0) → ∃ t < 24, rhoWalk t = (x, y) := by
  decide +kernel

/-- The walk gives no two of its positions the same offset. -/
theorem rhoWalkOffset_injOn : ∀ t < 24, ∀ u < 24, rhoWalkOffset t = rhoWalkOffset u → t = u := by
  decide +kernel

/-- So it is at no position twice. -/
theorem rhoWalk_injOn {t u : Nat} (ht : t < 24) (hu : u < 24) (h : rhoWalk t = rhoWalk u) : t = u := by
  apply rhoWalkOffset_injOn t ht u hu
  rw [← rhoOffset_rhoWalk t ht, ← rhoOffset_rhoWalk u hu, h]

/-- Settles O38: the walk of R32 is the witness, and Rho rotates by the table, which agrees with the walk. -/
theorem rhoRotatesByTheWalk : Obligations.RhoRotatesByTheWalk := by
  refine ⟨rhoWalk, rfl, fun t => ⟨rfl, ?_⟩, fun x y hxy => ?_, rhoWalkOffset_injOn, by decide, fun A =>
    ⟨laneAt_rho A 0 0, fun t ht => ?_⟩⟩
  · simp [rhoWalk, Fin.val_add, Fin.val_mul]
  · obtain ⟨t, ht, hwalk⟩ := exists_rhoWalk_eq x y hxy
    exact ⟨t, ⟨ht, hwalk⟩, fun u ⟨hu, hwalk'⟩ => rhoWalk_injOn hu ht (hwalk'.trans hwalk.symm)⟩
  · rw [laneAt_rho, rhoOffset_rhoWalk t ht, rhoWalkOffset]

/-- Settles O45: Pi is read at the place it moves the lane to, before and after Rho. -/
theorem rhoAndPiFuse : Obligations.RhoAndPiFuse := by
  intro T x y z hz
  obtain rfl : z = 2 * x + 3 * y := Fin.ext (by simp [hz, Fin.val_add, Fin.val_mul])
  exact ⟨laneAt_pi_image T x y, by rw [laneAt_pi_image, laneAt_rho]⟩

/-! ## The generating rule of the round constants (10_state.md R31) -/

/-- The bits set for the indices in `l`, on top of those of `v`. -/
theorem getLsbD_foldl_setBit (p : Nat → Bool) (k : Nat → Nat) (l : List Nat) (v : Lane) {z : Nat} (hz : z < 64) :
    (l.foldl (fun v j => if p j then v ||| ((1 : Lane) <<< k j) else v) v).getLsbD z =
      (v.getLsbD z || l.any fun j => decide (z = k j) && p j) := by
  have hbit (j : Nat) : ((1 : Lane) <<< k j).getLsbD z = decide (z = k j) := by
    rw [BitVec.getLsbD_shiftLeft]
    by_cases h : z = k j
    · simp [h, h ▸ hz]
    · by_cases hlt : z < k j
      · simp [h, hlt]
      · have hpos : z - k j ≠ 0 := by omega
        simp [h, BitVec.getLsbD_one, hpos]
  induction l generalizing v with
  | nil => simp
  | cons j l ih =>
    rw [List.foldl_cons, ih, List.any_cons]
    cases p j with
    | false => simp
    | true => rw [if_pos rfl, BitVec.getLsbD_or, hbit, Bool.and_true, Bool.or_assoc]

theorem getLsbD_rcGenerated (ir : Nat) {z : Nat} (hz : z < 64) :
    (rcGenerated ir).getLsbD z = (List.range 7).any fun j => decide (z = 2 ^ j - 1) && rcBit (j + 7 * ir) := by
  have hzero : (0 : Lane).getLsbD z = false := BitVec.getLsbD_zero
  rw [rcGenerated, getLsbD_foldl_setBit (fun j => rcBit (j + 7 * ir)) _ _ _ hz, hzero, Bool.false_or]

/-- The 24 constants of the table are those that the rule gives. -/
theorem roundConstant_eq_rcGenerated : ∀ ir : Fin 24, roundConstant ir = rcGenerated ir.val := by
  decide +kernel

/-- Settles O42: the table is the rule evaluated, and the rule sets the bits that the statement names. -/
theorem roundConstantsFollowTheGeneratingRule : Obligations.RoundConstantsFollowTheGeneratingRule := by
  intro ir z hz
  rw [roundConstant_eq_rcGenerated, getLsbD_rcGenerated _ hz]

/-! ## Theta is injective (40_permutation.md R102, R109) -/

section
variable {G H : Type} [AddCommGroup G] [AddCommGroup H] {e : G → H → Bool} {a : G} {n : H}

/-- Where each bit is the XOR of two others, at distance `a` to both sides and one of them `n` lower, it is also the XOR
of the two at twice the distance, since the middle terms cancel. -/
theorem xor_neighbours_double (h : ∀ x z, e x z = (e (x - a) z ^^ e (x + a) (z - n))) (x : G) (z : H) :
    e x z = (e (x - (a + a)) z ^^ e (x + (a + a)) (z - (n + n))) := by
  have hleft := h (x - a) z
  have hright := h (x + a) (z - n)
  rw [sub_add_cancel, sub_sub] at hleft
  rw [add_sub_cancel_right, add_assoc, sub_sub] at hright
  rw [h x z, hleft, hright]
  cases e x (z - n) <;> simp

theorem xor_neighbours_two_pow (h : ∀ x z, e x z = (e (x - a) z ^^ e (x + a) (z - n))) (k : Nat) (x : G) (z : H) :
    e x z = (e (x - 2 ^ k • a) z ^^ e (x + 2 ^ k • a) (z - 2 ^ k • n)) := by
  induction k generalizing x z with
  | zero => simpa using h x z
  | succ k ih =>
    rw [pow_succ, mul_two, add_smul, add_smul]
    exact xor_neighbours_double ih x z

end

/-- Six doublings make Theta's distances 64, which is 4 along a row of five and 0 along a lane: each bit is then the XOR
of its two neighbours in the row, and going round the row makes all five equal. -/
theorem eq_false_of_xor_neighbours {e : Fin 5 → Fin 64 → Bool}
    (h : ∀ x z, e x z = (e (x + 4) z ^^ e (x + 1) (z - 1))) (x : Fin 5) (z : Fin 64) : e x z = false := by
  have hback : ∀ x : Fin 5, x - 1 = x + 4 ∧ x - 4 = x + 1 := by decide
  have hround : ∀ x : Fin 5, x + 1 + 1 = x + 2 ∧ x + 1 + 4 = x ∧ x + 2 + 2 = x + 4 ∧ x + 2 + 4 = x + 1 := by decide
  have h5 : 2 ^ 6 • (1 : Fin 5) = 4 := by decide +kernel
  have h64 : 2 ^ 6 • (1 : Fin 64) = 0 := by decide +kernel
  have hrow (x : Fin 5) : e x z = (e (x + 1) z ^^ e (x + 4) z) := by
    have hnear (x : Fin 5) (z : Fin 64) : e x z = (e (x - 1) z ^^ e (x + 1) (z - 1)) := by rw [(hback x).1, h]
    rw [xor_neighbours_two_pow hnear 6 x z, h5, h64, sub_zero, (hback x).2]
  obtain ⟨-, -, h22, h24⟩ := hround x
  have hshift (x : Fin 5) : e (x + 2) z = e (x + 4) z := by
    obtain ⟨h11, h14, -⟩ := hround x
    have hnext := hrow (x + 1)
    rw [h11, h14, hrow x] at hnext
    generalize e (x + 1) z = b1, e (x + 2) z = b2, e (x + 4) z = b4 at hnext ⊢
    revert hnext
    cases b1 <;> simp
  rw [hrow x, ← h24, ← h22, hshift, Bool.xor_self]

/-- The bit of a lane turned by one is the bit below, and below the lowest bit is the highest. -/
theorem getLsbD_rotl64_one (v : Lane) (z : Fin 64) : (rotl64 v 1).getLsbD z.val = v.getLsbD (z - 1).val := by
  have hz : ((z - 1).val + 1) % 64 = z.val := by
    rw [Fin.val_sub]
    simp only [Fin.val_one]
    omega
  rw [← getLsbD_rotl64 v (n := 1) (by decide) (z - 1).isLt, hz]

theorem lane_eq_of_bits {v w : Lane} (h : ∀ z : Fin 64, v.getLsbD z.val = w.getLsbD z.val) : v = w :=
  BitVec.eq_of_getLsbD_eq fun z hz => h ⟨z, hz⟩

/-- Five equal masks in a column have the mask as their parity. -/
theorem columnParity_theta (A : Lanes) (x : Fin 5) :
    columnParity (theta A) x = columnParity A x ^^^ thetaMask A x := by
  simp only [columnParity, laneAt_theta]
  ext z hz
  simp only [BitVec.getElem_xor]
  cases (thetaMask A x)[z] <;> simp

/-- The parities after Theta determine those before it. -/
theorem columnParity_eq_of_theta_eq {A B : Lanes} (h : theta A = theta B) (x : Fin 5) :
    columnParity A x = columnParity B x := by
  have hdiff : ∀ (x : Fin 5) (z : Fin 64),
      ((columnParity A x).getLsbD z.val ^^ (columnParity B x).getLsbD z.val) = false := by
    refine eq_false_of_xor_neighbours fun x z => ?_
    have hparity := congrArg (·.getLsbD z.val) (congrArg (columnParity · x) h)
    simp only [columnParity_theta, thetaMask, BitVec.getLsbD_xor, getLsbD_rotl64_one] at hparity
    generalize (columnParity A x).getLsbD z.val = a, (columnParity B x).getLsbD z.val = b,
      (columnParity A (x + 4)).getLsbD z.val = a4, (columnParity B (x + 4)).getLsbD z.val = b4,
      (columnParity A (x + 1)).getLsbD (z - 1).val = a1, (columnParity B (x + 1)).getLsbD (z - 1).val = b1 at hparity ⊢
    clear h
    decide +revert
  exact lane_eq_of_bits fun z => by simpa using hdiff x z

/-- With the parities the masks are known, and with the masks the lanes. -/
theorem theta_injective : Function.Injective theta := by
  intro A B h
  have hmask (x : Fin 5) : thetaMask A x = thetaMask B x := by
    rw [thetaMask, thetaMask, columnParity_eq_of_theta_eq h, columnParity_eq_of_theta_eq h]
  refine lanes_ext fun x y => ?_
  have hlane := congrArg (laneAt · x y) h
  simp only [laneAt_theta, hmask] at hlane
  exact (BitVec.xor_left_inj _).mp hlane

/-! ## The other step mappings are injective (40_permutation.md R103 to R106, R109) -/

theorem rotl64_injective {n : Nat} (hn : n < 64) : Function.Injective (rotl64 · n) := by
  intro v w h
  refine lane_eq_of_bits fun z => ?_
  rw [← getLsbD_rotl64 v hn z.isLt, ← getLsbD_rotl64 w hn z.isLt]
  exact congrArg (·.getLsbD ((z.val + n) % 64)) h

theorem rho_injective : Function.Injective rho := by
  intro A B h
  refine lanes_ext fun x y => rotl64_injective (rhoOffset_lt x y) ?_
  simpa using congrArg (laneAt · x y) h

/-- Chi is undone row by row: each bit is the new one, XORed with the next new bit negated AND the old value of the bit
after it, with the same formula for that one. -/
theorem laneAt_eq_of_chi (A : Lanes) (x y : Fin 5) :
    laneAt A x y = laneAt (chi A) x y ^^^ (~~~(laneAt (chi A) (x + 1) y) &&&
      (laneAt (chi A) (x + 2) y ^^^ (~~~(laneAt (chi A) (x + 3) y) &&& laneAt (chi A) (x + 4) y))) := by
  have hrow : x + 1 + 1 = x + 2 ∧ x + 1 + 2 = x + 3 ∧ x + 2 + 1 = x + 3 ∧ x + 2 + 2 = x + 4 ∧ x + 3 + 1 = x + 4 ∧
      x + 3 + 2 = x ∧ x + 4 + 1 = x ∧ x + 4 + 2 = x + 1 := by decide +revert
  obtain ⟨h11, h12, h21, h22, h31, h32, h41, h42⟩ := hrow
  simp only [laneAt_chi, h11, h12, h21, h22, h31, h32, h41, h42]
  ext z hz
  simp only [BitVec.getElem_xor, BitVec.getElem_and, BitVec.getElem_not]
  generalize (laneAt A x y)[z] = a0, (laneAt A (x + 1) y)[z] = a1, (laneAt A (x + 2) y)[z] = a2,
    (laneAt A (x + 3) y)[z] = a3, (laneAt A (x + 4) y)[z] = a4
  decide +revert

theorem chi_injective : Function.Injective chi := by
  intro A B h
  refine lanes_ext fun x y => ?_
  rw [laneAt_eq_of_chi A, laneAt_eq_of_chi B, h]

/-- The round constant XORed in twice is gone. -/
theorem iota_involutive (ir : Fin 24) : Function.Involutive (iota · ir) := by
  intro A
  refine lanes_ext fun x y => ?_
  rw [iotaAddsTheRoundConstant, iotaAddsTheRoundConstant]
  split
  · rw [BitVec.xor_assoc, BitVec.xor_self]
    exact BitVec.xor_zero
  · rfl

theorem rnd_injective (ir : Fin 24) : Function.Injective (rnd · ir) :=
  (iota_involutive ir).injective.comp <| chi_injective.comp <| pi_injective.comp <|
    rho_injective.comp theta_injective

theorem foldl_rnd_injective (irs : List (Fin 24)) : Function.Injective (irs.foldl rnd ·) := by
  induction irs with
  | nil => exact Function.injective_id
  | cons ir irs ih => exact ih.comp (rnd_injective ir)

theorem finite_lanes : Finite Lanes :=
  Finite.of_injective (fun A (p : Fin 5 × Fin 5) => laneAt A p.1 p.2) fun _ _ h =>
    lanes_ext fun x y => congrFun h (x, y)

/-- Settles O44: every step mapping is injective, and an injective map of the finitely many states is onto. -/
theorem keccakPIsABijection : Obligations.KeccakPIsABijection := by
  have hfinite := finite_lanes
  exact Finite.injective_iff_bijective.mp (foldl_rnd_injective (List.finRange 24))

end Sys2Proof.Machine

namespace Sys2Proof.Machine

/-! ## Padding in the state and padding the block (42_padding.md R148, R149) -/

/-- Two bytes XORed in at one position are their XOR there. -/
theorem memXor_memXor_same (A : Lanes) (p : Nat) (v w : Byte) :
    memXor (memXor A p v) p w = memXor A p (v ^^^ w) := by
  refine bytesDetermineTheLanes _ _ fun q => ?_
  simp only [memRead_memXor]
  split
  · exact BitVec.xor_assoc _ _ _
  · rfl

theorem memXor_zero (A : Lanes) (p : Nat) : memXor A p 0 = A := by
  refine bytesDetermineTheLanes _ _ fun q => ?_
  rw [memRead_memXor]
  split
  · exact BitVec.xor_zero
  · rfl

/-- Zeros after a block change nothing. -/
theorem absorbBlock_append_zeros (A : Lanes) {d : List Byte} {k rate : Nat} (h : d.length + k ≤ rate) :
    absorbBlock A (d ++ List.replicate k 0) rate = absorbBlock A d rate := by
  induction k with
  | zero => rw [List.replicate_zero, List.append_nil]
  | succ k ih =>
    have hlt : (d ++ List.replicate k (0 : Byte)).length < rate := by simp; omega
    rw [List.replicate_succ', ← List.append_assoc, absorbBlock_append_singleton A hlt, memXor_zero, ih (by omega)]

theorem suffix_xor_terminator (dom : Domain) : suffix dom ^^^ terminator = combined dom := by
  cases dom <;> decide

/-- Both cases of PadXor are the suffix at `pos`, then the terminator at `rate − 1`. -/
theorem padXor_eq_memXor_memXor (A : Lanes) (pos rate : Nat) (dom : Domain) :
    padXor A pos rate dom = memXor (memXor A pos (suffix dom)) (rate - 1) terminator := by
  unfold padXor
  split
  case isTrue h => rw [← h, Nat.add_sub_cancel, memXor_memXor_same, suffix_xor_terminator]
  case isFalse => rfl

/-- The padded block is the tail, then the combined byte, or the suffix, zeros and the terminator, absorbed in order. -/
theorem padXor_absorbBlock (A : Lanes) {tail : List Byte} {rate : Nat} (dom : Domain) (h : tail.length < rate) :
    padXor (absorbBlock A tail rate) tail.length rate dom = absorbBlock A (padBlock tail rate dom) rate := by
  obtain ⟨_ | k, rfl⟩ := Nat.exists_eq_add_of_lt h
  · rw [Nat.add_zero, padBlock_of_one_free, absorbBlock_append_singleton A (Nat.lt_succ_self _), padXor, if_pos rfl]
  · rw [Nat.add_assoc tail.length] at h ⊢
    have hsplit : tail ++ suffix dom :: (List.replicate k 0 ++ [terminator]) =
        ((tail ++ [suffix dom]) ++ List.replicate k 0) ++ [terminator] := by simp
    have hzeros : ((tail ++ [suffix dom]) ++ List.replicate k (0 : Byte)).length = tail.length + (k + 1 + 1) - 1 := by
      simp
    rw [padXor_eq_memXor_memXor, padBlock_of_two_free, hsplit, absorbBlock_append_singleton A (by omega), hzeros,
      absorbBlock_append_zeros A (by simp; omega), absorbBlock_append_singleton A h]

/-- Settles O47: the two ways of padding XOR the same bytes in, the combined byte being the suffix and the terminator
in one. -/
theorem paddingByXorIsAbsorbingThePadBlock : Obligations.PaddingByXorIsAbsorbingThePadBlock :=
  ⟨fun A _ _ dom h _ => padXor_absorbBlock A dom h, fun A pos rate dom _ => padXor_eq_memXor_memXor A pos rate dom⟩

/-! ## Two lists of events served one after the other (20_memory.md R62) -/

theorem length_of_serve {es : List HostEvent} {s t : State} {rs : List (Option Response)}
    (h : serve es s = some (t, rs)) : rs.length = es.length := by
  induction es generalizing s rs with
  | nil =>
    cases h
    rfl
  | cons e es ih =>
    obtain ⟨u, rs', -, hrest, rfl⟩ := serve_cons_eq_some_iff.mp h
    rw [List.length_cons, List.length_cons, ih hrest]

theorem serve_append {es es' : List HostEvent} {s t u : State} {rs rs' : List (Option Response)}
    (h : serve es s = some (t, rs)) (h' : serve es' t = some (u, rs')) :
    serve (es ++ es') s = some (u, rs ++ rs') := by
  induction es generalizing s rs with
  | nil =>
    cases h
    exact h'
  | cons e es ih =>
    obtain ⟨v, rs, hevent, hrest, rfl⟩ := serve_cons_eq_some_iff.mp h
    exact serve_cons_eq_some_iff.mpr ⟨v, rs ++ rs', hevent, ih hrest, rfl⟩

theorem serve_singleton {e : HostEvent} {s t : State} (h : handleEvent e s = .next t) :
    serve [e] s = some (t, [t.rsp]) :=
  serve_cons_eq_some_iff.mpr ⟨t, [], h, rfl, rfl⟩

/-! ## Absorbing a block a byte at a time (41_absorb_squeeze.md section 3) -/

/-- ABSORB of each byte of `d`. -/
def absorbCommands (d : List Byte) : List HostEvent := d.map fun b => send (.absorb b)

theorem absorbCommands_append (d d' : List Byte) :
    absorbCommands (d ++ d') = absorbCommands d ++ absorbCommands d' :=
  List.map_append

/-- What the ABSORBs of a block `d` make of a state with POS 0. -/
def State.blockAbsorbed (s : State) (d : List Byte) : State :=
  if d.length = rate s.variant then
    { s with lanes := keccakP (absorbBlock s.lanes d (rate s.variant)) }
  else
    { s with lanes := absorbBlock s.lanes d (rate s.variant), pos := BitVec.ofNat 8 d.length }

section
variable {s t : State} {d : List Byte}

theorem blockAbsorbed_of_lt (h : d.length < rate s.variant) : s.blockAbsorbed d =
    { s with lanes := absorbBlock s.lanes d (rate s.variant), pos := BitVec.ofNat 8 d.length } :=
  if_neg h.ne

theorem blockAbsorbed_of_eq (h : d.length = rate s.variant) :
    s.blockAbsorbed d = { s with lanes := keccakP (absorbBlock s.lanes d (rate s.variant)) } :=
  if_pos h

theorem toNat_ofNat_of_le_rate {n : Nat} {v : Variant} (h : n ≤ rate v) : (BitVec.ofNat 8 n).toNat = n := by
  have hmax := rate_le v
  rw [BitVec.toNat_ofNat, Nat.mod_eq_of_lt (by omega)]

/-- One more byte of the block is absorbed as ABSORB absorbs it. -/
theorem absorbed_blockAbsorbed (hpos : s.pos = 0) (h : d.length < rate s.variant) (b : Byte) :
    (s.blockAbsorbed d).absorbed b = s.blockAbsorbed (d ++ [b]) := by
  have hmax := rate_le s.variant
  have hnat := toNat_ofNat_of_le_rate h.le
  have hlen : (d ++ [b]).length = d.length + 1 := List.length_append
  rw [blockAbsorbed_of_lt h]
  by_cases hfull : d.length + 1 = rate s.variant
  · rw [absorbed_of_eq _ (by rw [hnat]; exact hfull), blockAbsorbed_of_eq (hlen.trans hfull), hnat,
      absorbBlock_append_singleton _ h, hpos]
  · have hlt : (d ++ [b]).length < rate s.variant := by omega
    rw [absorbed_of_ne _ (by rw [hnat]; exact hfull) (by rw [hnat]; omega), blockAbsorbed_of_lt hlt, hnat,
      absorbBlock_append_singleton _ h, hlen, BitVec.ofNat_add]
    rfl

/-- A state with the registers and lanes of another absorbs as that one does. -/
theorem exists_exec_absorb {u : State} (h : u.sameEngine t) (hphase : u.phase = .absorb) (hpos : u.pos.toNat < 200)
    (b : Byte) : ∃ t', exec (.absorb b) t = .next t' ∧ t'.rsp = some ⟨0, 0⟩ ∧ (u.absorbed b).sameEngine t' :=
  answersAlike_exec h (.absorb b) _ (exec_absorb_of_absorb hphase hpos)

theorem exists_serve_absorbCommands (hphase : s.phase = .absorb) (hpos : s.pos = 0)
    (h : d.length ≤ rate s.variant) :
    ∃ t rs, serve (absorbCommands d) s = some (t, rs) ∧ (∀ r ∈ rs, r = some ⟨0, 0⟩) ∧
      (s.blockAbsorbed d).sameEngine t := by
  have hmin := rate_ge s.variant
  induction d using List.reverseRecOn with
  | nil =>
    have hzero : BitVec.ofNat 8 ([] : List Byte).length = s.pos := hpos.symm
    have hstart : s.blockAbsorbed [] = s := by
      rw [blockAbsorbed_of_lt (by simp; omega), absorbBlock_nil, hzero]
    exact ⟨s, [], rfl, by simp, hstart.symm ▸ sameEngine_refl s⟩
  | append_singleton d b ih =>
    have hlt : d.length < rate s.variant := by simpa [Nat.succ_le_iff] using h
    obtain ⟨t, rs, hserve, hrs, ht⟩ := ih hlt.le
    rw [← absorbed_blockAbsorbed hpos hlt b]
    have hlow : (s.blockAbsorbed d).pos.toNat < 200 := by
      have hmax := rate_le s.variant
      rw [blockAbsorbed_of_lt hlt, toNat_ofNat_of_le_rate hlt.le]
      omega
    have hphase' : (s.blockAbsorbed d).phase = .absorb := by rw [blockAbsorbed_of_lt hlt, hphase]
    obtain ⟨t', hexec, hrsp, ht'⟩ := exists_exec_absorb ht hphase' hlow b
    have hlast := serve_singleton ((handleEvent_send (i := .absorb b) rfl t).trans hexec)
    refine ⟨t', rs ++ [t'.rsp], absorbCommands_append d [b] ▸ serve_append hserve hlast, fun r hr => ?_, ht'⟩
    rcases List.mem_append.mp hr with hr | hr
    · exact hrs r hr
    · rw [List.mem_singleton.mp hr, hrsp]

end

/-- Settles O50, by induction on the block from its end: the last byte is absorbed at the position after the others. -/
theorem absorbingByBytesIsAbsorbBlock : Obligations.AbsorbingByBytesIsAbsorbBlock :=
  fun _ _ hphase hpos h => exists_serve_absorbCommands hphase hpos h

end Sys2Proof.Machine

namespace Sys2Proof.Machine

/-! ## The state after the message (43_sponge.md section 4) -/

theorem absorbBlocks_succ (rate : Nat) (m : List Byte) (k : Nat) : absorbBlocks rate m (k + 1) =
    keccakP (absorbBlock (absorbBlocks rate m k) (messageBlock m rate k) rate) := by
  simp only [absorbBlocks, List.range_succ, List.foldl_append, List.foldl_cons, List.foldl_nil]

theorem take_succ_mul (rate : Nat) (m : List Byte) (k : Nat) :
    m.take ((k + 1) * rate) = m.take (k * rate) ++ messageBlock m rate k := by
  rw [Nat.succ_mul, List.take_add, messageBlock]

theorem length_messageBlock {rate : Nat} {m : List Byte} {k : Nat} (h : (k + 1) * rate ≤ m.length) :
    (messageBlock m rate k).length = rate := by
  rw [Nat.succ_mul] at h
  rw [messageBlock, List.length_take, List.length_drop]
  omega

theorem length_messageTail (rate : Nat) (m : List Byte) : (messageTail rate m).length = m.length % rate := by
  rw [messageTail, List.length_drop, Nat.mod_eq_sub_div_mul]

/-- What INIT and the message leave: the reference state after the full blocks with the tail XORed in. -/
structure MessageAbsorbed (w : Variant) (m : List Byte) (t : State) : Prop where
  phase : t.phase = .absorb
  variant : t.variant = w
  pos : t.pos.toNat = m.length % rate w
  outcnt : t.outcnt = 0
  err : t.err = 0
  lanes : t.lanes = absorbBlock (absorbBlocks (rate w) m (m.length / rate w)) (messageTail (rate w) m) (rate w)

/-- What FINAL makes of it: the reference state after the padded block, and nothing squeezed yet. -/
structure ReadyToSqueeze (w : Variant) (m : List Byte) (u : State) : Prop where
  lanes : u.lanes = absorbMessage (rate w) (domain w) m
  phase : u.phase = .squeeze
  variant : u.variant = w
  pos : u.pos = 0
  outcnt : u.outcnt = 0
  err : u.err = 0

section
variable {s t : State} {w : Variant} {m : List Byte}

/-- Full blocks, each absorbed from POS 0 and leaving POS 0. -/
theorem exists_serve_blocks (hphase : s.phase = .absorb) (hpos : s.pos = 0) (hlanes : s.lanes = zeroLanes) {k : Nat}
    (hk : k * rate s.variant ≤ m.length) :
    ∃ t rs, serve (absorbCommands (m.take (k * rate s.variant))) s = some (t, rs) ∧ (∀ r ∈ rs, r = some ⟨0, 0⟩) ∧
      State.sameEngine { s with lanes := absorbBlocks (rate s.variant) m k } t := by
  induction k with
  | zero =>
    rw [Nat.zero_mul, List.take_zero]
    exact ⟨s, [], rfl, by simp, hlanes, rfl, rfl, rfl, rfl, rfl⟩
  | succ k ih =>
    obtain ⟨t, rs, hserve, hrs, ht⟩ := ih (le_trans (Nat.mul_le_mul_right _ (Nat.le_succ k)) hk)
    obtain ⟨htlanes, htvariant, htphase, htpos, htoutcnt, hterr⟩ := ht
    dsimp only at htlanes htvariant htphase htpos htoutcnt hterr
    have hlen : (messageBlock m (rate s.variant) k).length = rate t.variant :=
      (length_messageBlock hk).trans (congrArg rate htvariant.symm)
    obtain ⟨u, rs', hserve', hrs', hu⟩ :=
      exists_serve_absorbCommands (htphase.trans hphase) (htpos.trans hpos) hlen.le
    rw [blockAbsorbed_of_eq hlen] at hu
    have hblock : State.sameEngine { s with lanes := absorbBlocks (rate s.variant) m (k + 1) }
        { t with lanes := keccakP (absorbBlock t.lanes (messageBlock m (rate s.variant) k) (rate t.variant)) } :=
      ⟨by simp only [absorbBlocks_succ, htlanes, htvariant], htvariant, htphase, htpos, htoutcnt, hterr⟩
    rw [take_succ_mul, absorbCommands_append]
    exact ⟨u, rs ++ rs', serve_append hserve hserve',
      fun r hr => (List.mem_append.mp hr).elim (hrs r) (hrs' r), sameEngine_trans hblock hu⟩

/-- The full blocks of the message, then its tail, which is shorter than a block. -/
theorem exists_serve_message (hphase : s.phase = .absorb) (hvariant : s.variant = w) (hpos : s.pos = 0)
    (houtcnt : s.outcnt = 0) (herr : s.err = 0) (hlanes : s.lanes = zeroLanes) (m : List Byte) :
    ∃ t rs, serve (absorbCommands m) s = some (t, rs) ∧ (∀ r ∈ rs, r = some ⟨0, 0⟩) ∧ MessageAbsorbed w m t := by
  subst hvariant
  have hrate : 0 < rate s.variant := Nat.lt_of_lt_of_le (Nat.zero_lt_succ _) (rate_ge s.variant)
  obtain ⟨t, rs, hserve, hrs, htlanes, htvariant, htphase, htpos, htoutcnt, hterr⟩ :=
    exists_serve_blocks hphase hpos hlanes (Nat.div_mul_le_self m.length (rate s.variant))
  dsimp only at htlanes htvariant htphase htpos htoutcnt hterr
  have hlen := length_messageTail (rate s.variant) m
  have hlt : (messageTail (rate s.variant) m).length < rate t.variant := by
    rw [hlen, htvariant]
    exact Nat.mod_lt _ hrate
  obtain ⟨u, rs', hserve', hrs', hu⟩ :=
    exists_serve_absorbCommands (htphase.trans hphase) (htpos.trans hpos) hlt.le
  have hnat := toNat_ofNat_of_le_rate hlt.le
  rw [blockAbsorbed_of_lt hlt] at hu
  obtain ⟨hulanes, huvariant, huphase, hupos, huoutcnt, huerr⟩ := hu
  dsimp only at hulanes huvariant huphase hupos huoutcnt huerr
  have hsplit := serve_append hserve hserve'
  rw [← absorbCommands_append, messageTail, List.take_append_drop] at hsplit
  refine ⟨u, rs ++ rs', hsplit, fun r hr => (List.mem_append.mp hr).elim (hrs r) (hrs' r), huphase.trans
    (htphase.trans hphase), huvariant.trans htvariant, by rw [hupos, hnat, hlen], huoutcnt.trans
    (htoutcnt.trans houtcnt), huerr.trans (hterr.trans herr), by rw [hulanes, htlanes, htvariant]⟩

theorem exists_serve_init_message {v : BitVec 3} (hv : variantOfCode v = some w) (m : List Byte) (s : State) :
    ∃ t rs, serve (send (.init v) :: absorbCommands m) s = some (t, rs) ∧ (∀ r ∈ rs, r = some ⟨0, 0⟩) ∧
      MessageAbsorbed w m t := by
  have hinit := (handleEvent_send (i := .init v) rfl s).trans (exec_init_of_variant hv s)
  obtain ⟨t, rs, hserve, hrs, ht⟩ :=
    exists_serve_message (s := (s.started w).answered 0) (w := w) rfl rfl rfl rfl rfl rfl m
  exact ⟨t, _, serve_cons_eq_some_iff.mpr ⟨_, rs, hinit, hserve, rfl⟩, List.forall_mem_cons.mpr ⟨rfl, hrs⟩, ht⟩

/-- FINAL pads the state, which is absorbing the padded block. -/
theorem exec_final_of_messageAbsorbed (h : MessageAbsorbed w m t) :
    exec .final t = .next (t.finished.answered 0) ∧ ReadyToSqueeze w m (t.finished.answered 0) := by
  have hmax := rate_le w
  have hmin := rate_ge w
  have hlt : m.length % rate w < rate w := Nat.mod_lt _ (by omega)
  refine ⟨exec_final_of_absorb h.phase (by rw [h.pos]; omega), ?_, rfl, h.variant, rfl, rfl, h.err⟩
  have hlen := length_messageTail (rate w) m
  rw [answered_lanes, finished_lanes, h.lanes, h.pos, h.variant, ← hlen, padXor_absorbBlock _ _ (hlen.symm ▸ hlt),
    absorbMessage]

end

/-- Settles O54: INIT starts from zero lanes, the message is its full blocks and a tail, and FINAL absorbs the padded
tail. -/
theorem stateAfterTheMessage : Obligations.StateAfterTheMessage := by
  intro v w m s hv
  obtain ⟨t, rs, hserve, -, ht⟩ := exists_serve_init_message hv m s
  obtain ⟨hexec, hu⟩ := exec_final_of_messageAbsorbed ht
  exact ⟨t, rs, hserve, ht.phase, ht.variant, ht.pos, ht.outcnt, ht.err, ht.lanes, _, hexec, hu.lanes, hu.phase,
    hu.variant, hu.pos, hu.outcnt, hu.err⟩

end Sys2Proof.Machine

namespace Sys2Proof.Machine

/-! ## The output stream of a state (43_sponge.md section 1) -/

/-- Byte `j` of the stream that squeezing `A` gives: byte `j mod rate` of `A` permuted `j div rate` times. -/
def squeezedByte (rate : Nat) (A : Lanes) (j : Nat) : Byte :=
  memRead (keccakP^[j / rate] A) (Fin.ofNat 200 (j % rate))

theorem squeezedByte_eq (rate : Nat) (A : Lanes) {j : Nat} {p : Fin 200} (hp : p.val = j % rate) :
    squeezedByte rate A j = memRead (keccakP^[j / rate] A) p := by
  have hofNat : Fin.ofNat 200 (j % rate) = p := Fin.ext (by simp [← hp])
  rw [squeezedByte, hofNat]

/-- One block further on, the stream is that of the permuted state. -/
theorem squeezedByte_add_rate {rate : Nat} (hrate : 0 < rate) (A : Lanes) (j : Nat) :
    squeezedByte rate A (rate + j) = squeezedByte rate (keccakP A) j := by
  rw [squeezedByte, squeezedByte, Nat.add_div_left j hrate, Nat.add_mod_left, Function.iterate_succ_apply]

/-- Within the first block the stream is the block. -/
theorem squeezeBlock_eq_map {rate n : Nat} (hn : n ≤ rate) (hmax : n ≤ 200) (A : Lanes) :
    squeezeBlock A n = (List.range n).map (squeezedByte rate A) := by
  refine List.ext_getElem? fun j => ?_
  rcases Nat.lt_or_ge j n with hj | hj
  · have hlt : j < rate := Nat.lt_of_lt_of_le hj hn
    have hp : (⟨j, Nat.lt_of_lt_of_le hj hmax⟩ : Fin 200).val = j % rate := (Nat.mod_eq_of_lt hlt).symm
    rw [List.getElem?_map, List.getElem?_range hj, Option.map_some, squeezedByte_eq rate A hp, Nat.div_eq_of_lt hlt]
    exact getElem?_squeezeBlock (p := ⟨j, _⟩) A hj
  · rw [List.getElem?_eq_none (by rwa [length_squeezeBlock A hmax]), List.getElem?_eq_none (by simpa using hj)]

/-- A turn of the loop outputs the next bytes of the stream, up to the end of a block. -/
theorem map_squeezedByte_block {rate : Nat} (hrate : 1 ≤ rate) (hmax : rate ≤ 200) (A : Lanes) (k : Nat) :
    (List.range k).map (squeezedByte rate A) =
      squeezeBlock A (min rate k) ++ (List.range (k - min rate k)).map (squeezedByte rate (keccakP A)) := by
  rcases Nat.le_total k rate with hle | hge
  · rw [Nat.min_eq_right hle, Nat.sub_self, squeezeBlock_eq_map hle (hle.trans hmax)]
    exact (List.append_nil _).symm
  · obtain ⟨q, rfl⟩ := Nat.exists_eq_add_of_le hge
    rw [Nat.min_eq_left hge, Nat.add_sub_cancel_left, squeezeBlock_eq_map le_rfl hmax, List.range_add, List.map_append,
      List.map_map]
    congr 1
    exact List.map_congr_left fun j _ => squeezedByte_add_rate hrate A j

/-- The state whose first block the loop outputs next: `A` itself before the first turn, its permutation after. -/
def nextBlock (A : Lanes) (out : List Byte) : Lanes := if out.length = 0 then A else keccakP A

/-- With turns enough for the bytes still to come, the loop adds exactly these. -/
theorem squeezeLoop_eq {rate n : Nat} (hrate : 1 ≤ rate) (hmax : rate ≤ 200) {turns : Nat} {A : Lanes}
    {out : List Byte} (hturns : n ≤ out.length + turns) :
    squeezeLoop rate n turns A out =
      out ++ (List.range (n - out.length)).map (squeezedByte rate (nextBlock A out)) := by
  induction turns generalizing A out with
  | zero =>
    rw [Nat.add_zero] at hturns
    rw [squeezeLoop, Nat.sub_eq_zero_of_le hturns]
    exact (List.append_nil out).symm
  | succ turns ih =>
    rw [squeezeLoop]
    split
    case isTrue hmore =>
      have hlen : (squeezeBlock (nextBlock A out) (min rate (n - out.length))).length =
          min rate (n - out.length) := length_squeezeBlock _ (by omega)
      have hnext : nextBlock (nextBlock A out)
          (out ++ squeezeBlock (nextBlock A out) (min rate (n - out.length))) = keccakP (nextBlock A out) :=
        if_neg (by rw [List.length_append, hlen]; omega)
      have hih := ih (A := nextBlock A out)
        (out := out ++ squeezeBlock (nextBlock A out) (min rate (n - out.length)))
        (by rw [List.length_append, hlen]; omega)
      rw [hnext, List.length_append, hlen, ← Nat.sub_sub, List.append_assoc,
        ← map_squeezedByte_block hrate hmax] at hih
      exact hih
    case isFalse hdone =>
      rw [Nat.sub_eq_zero_of_le (Nat.le_of_not_lt hdone)]
      exact (List.append_nil out).symm

theorem sponge_eq_map {rate : Nat} (hrate : 1 ≤ rate) (hmax : rate ≤ 200) (dom : Domain) (m : List Byte) (n : Nat) :
    sponge rate dom m n = (List.range n).map (squeezedByte rate (absorbMessage rate dom m)) :=
  squeezeLoop_eq hrate hmax (Nat.le_add_left n 0)

/-- Settles O53: the output is the first `n` bytes of the stream of the absorbed state. -/
theorem spongeOutput : Obligations.SpongeOutput := by
  intro rate dom m n hrate hmax
  have hsponge := sponge_eq_map hrate hmax dom m
  refine ⟨by simp [hsponge], fun k hk => ?_, fun j hj p hp => ?_⟩
  · rw [hsponge, hsponge, ← List.map_take, List.take_range, Nat.min_eq_left hk]
  · rw [hsponge, List.getElem?_map, List.getElem?_range hj, Option.map_some, squeezedByte_eq _ _ hp]

/-! ## Squeezing a byte at a time (41_absorb_squeeze.md section 3) -/

/-- The response to the SQUEEZE of byte `j` of the stream. -/
def squeezedResponse (rate : Nat) (A : Lanes) (j : Nat) : Response := ⟨(squeezedByte rate A j).setWidth 64, 0⟩

/-- The next SQUEEZE reads byte `m` of the stream of `A`. -/
structure StandsAt (m : Nat) (A : Lanes) (s : State) : Prop where
  lanes : s.refilled.lanes = keccakP^[m / rate s.variant] A
  pos : s.refilled.pos.toNat = m % rate s.variant

section
variable {m : Nat} {A : Lanes} {s t : State}

theorem standsAt_of_pos_eq_zero (h : s.pos = 0) : StandsAt 0 s.lanes s := by
  have hmin := rate_ge s.variant
  have hrefilled : s.refilled = s := refilled_of_ne s (by simp [h]; omega)
  exact ⟨by simp [hrefilled], by simp [hrefilled, h]⟩

theorem standsAt_congr (h : s.sameEngine t) (hs : StandsAt m A s) : StandsAt m A t := by
  have ⟨_, hvariant, _⟩ := h
  obtain ⟨hlanes, -, -, hpos, -⟩ := sameEngine_refilled h
  exact ⟨by rw [hlanes, hvariant, hs.lanes], by rw [hpos, hvariant, hs.pos]⟩

theorem byte_of_standsAt (hs : StandsAt m A s) {p : Fin 200} (hp : p.val = s.refilled.pos.toNat) :
    memRead s.refilled.lanes p = squeezedByte (rate s.variant) A m := by
  rw [squeezedByte_eq _ _ (hp.trans hs.pos), hs.lanes]

/-- The byte after the last one of a block is the first of the permuted lanes. -/
theorem standsAt_squeezed (hs : StandsAt m A s) : StandsAt (m + 1) A s.refilled.squeezed := by
  have hmax := rate_le s.variant
  have hrate : 0 < rate s.variant := Nat.lt_of_lt_of_le (Nat.zero_lt_succ _) (rate_ge s.variant)
  have hlt := Nat.mod_lt m hrate
  have hdiv := Nat.mod_add_div m (rate s.variant)
  have hvariant : s.refilled.squeezed.variant = s.variant := by simp
  have hpos : s.refilled.squeezed.pos.toNat = m % rate s.variant + 1 := by
    rw [squeezed_pos, BitVec.toNat_add_of_lt (by rw [hs.pos]; simp; omega), hs.pos]
    rfl
  by_cases hfull : m % rate s.variant + 1 = rate s.variant
  · obtain ⟨hquot, hrem⟩ : (m + 1) / rate s.variant = m / rate s.variant + 1 ∧ (m + 1) % rate s.variant = 0 :=
      (Nat.div_mod_unique hrate).mpr ⟨by rw [Nat.mul_succ]; omega, hrate⟩
    have hrefilled := refilled_of_eq s.refilled.squeezed (by rw [hpos, hvariant, hfull])
    refine ⟨?_, ?_⟩ <;> rw [hrefilled, hvariant]
    · rw [hquot, Function.iterate_succ_apply', squeezed_lanes, hs.lanes]
    · rw [hrem]
      rfl
  · obtain ⟨hquot, hrem⟩ :
        (m + 1) / rate s.variant = m / rate s.variant ∧ (m + 1) % rate s.variant = m % rate s.variant + 1 :=
      (Nat.div_mod_unique hrate).mpr ⟨by omega, by omega⟩
    have hrefilled := refilled_of_ne s.refilled.squeezed (by rwa [hpos, hvariant])
    refine ⟨?_, ?_⟩ <;> rw [hrefilled, hvariant]
    · rw [hquot, squeezed_lanes, hs.lanes]
    · rw [hrem, hpos]

/-- SQUEEZEs that raise no fault respond the bytes of the stream in order. -/
theorem responses_of_serve_squeezeN {n : Nat} {rs : List (Option Response)} (hs : StandsAt m A s)
    (hserve : serve (squeezeN n) s = some (t, rs)) (hrs : ∀ r ∈ rs, ∃ v, r = some ⟨v, 0⟩) :
    rs = (List.range' m n).map fun j => some (squeezedResponse (rate s.variant) A j) := by
  induction n generalizing m s rs with
  | zero =>
    cases hserve
    rfl
  | succ n ih =>
    obtain ⟨u, rs', hevent, hrest, rfl⟩ := serve_cons_eq_some_iff.mp hserve
    obtain ⟨hsucc, hrs'⟩ := List.forall_mem_cons.mp hrs
    rw [handleEvent_send rfl] at hevent
    obtain ⟨-, -, p, hp, hu⟩ := completes_of_succeeded hevent hsucc
    have hsame : s.refilled.squeezed.sameEngine u := hu ▸ sameEngine_answered _ _
    have ⟨_, hvariant, _⟩ := hsame
    rw [ih (standsAt_congr hsame (standsAt_squeezed hs)) hrest hrs', hvariant, squeezed_variant, refilled_variant,
      List.range'_succ, List.map_cons, hu, answered_rsp, byte_of_standsAt hs hp, squeezedResponse]

end

/-- Settles O51: while DLEN leaves room no SQUEEZE faults, and the responses are the stream of the lanes. -/
theorem squeezingByBytesIsSqueezeBlocks : Obligations.SqueezingByBytesIsSqueezeBlocks := by
  intro n s hphase hpos hlength
  have hroom (k : Nat) (hk : dlen s.variant = some k) : s.outcnt.toNat + n ≤ k := by
    rcases hlength with hxof | ⟨k', hk', hn, houtcnt⟩
    · cases hxof.symm.trans hk
    · cases hk'.symm.trans hk
      simpa [houtcnt] using hn
  obtain ⟨t, rs, hserve, hrs, -⟩ := exists_serve_squeezeN n hphase (hpos ▸ Nat.zero_le _) hroom
  have hbytes := responses_of_serve_squeezeN (standsAt_of_pos_eq_zero hpos) hserve hrs
  rw [← List.range_eq_range'] at hbytes
  refine ⟨t, rs, hserve, by simp [hbytes], fun j hj p hp => ?_⟩
  rw [hbytes, List.getElem?_map, List.getElem?_range hj, Option.map_some, squeezedResponse, squeezedByte_eq _ _ hp]

end Sys2Proof.Machine

namespace Sys2Proof.Machine

/-! ## The responses to the SQUEEZEs of a list of events (43_sponge.md section 4) -/

theorem isSqueeze_send (i : Instr) : isSqueeze (send i) = true ↔ i = .squeeze := by
  have hword : (0x5000 : BitVec 16) = encode .squeeze := rfl
  simp only [isSqueeze, send, beq_iff_eq, hword]
  constructor
  · intro h
    have hopc := congrArg opcField h
    rw [opcField_encode, opcField_encode] at hopc
    exact eq_squeeze_of_opcodeOf_eq i hopc
  · rintro rfl
    rfl

section
variable {p : HostEvent → Bool} {e : HostEvent} {es es' : List HostEvent} {o : Option Response}
  {rs rs' : List (Option Response)}

theorem responsesTo_cons_of_true (h : p e = true) :
    responsesTo p (e :: es) (o :: rs) = o.toList ++ responsesTo p es rs := by
  cases o <;> simp [responsesTo, h]

theorem responsesTo_cons_of_false (h : p e = false) : responsesTo p (e :: es) (o :: rs) = responsesTo p es rs := by
  simp [responsesTo, h]

theorem responsesTo_append (h : rs.length = es.length) :
    responsesTo p (es ++ es') (rs ++ rs') = responsesTo p es rs ++ responsesTo p es' rs' := by
  rw [responsesTo, List.zip_append h.symm, List.filterMap_append]
  rfl

theorem responsesTo_eq_nil (h : ∀ e ∈ es, p e = false) (hlen : rs.length = es.length) : responsesTo p es rs = [] := by
  induction es generalizing rs with
  | nil => simp [responsesTo]
  | cons e es ih =>
    obtain ⟨o, rs, rfl⟩ := List.exists_cons_of_length_eq_add_one hlen
    obtain ⟨he, hes⟩ := List.forall_mem_cons.mp h
    rw [responsesTo_cons_of_false he, ih hes (Nat.succ.inj hlen)]

/-- Where every event counts and each is answered, the responses are all those given. -/
theorem responsesTo_map_some {rs : List Response} (h : ∀ e ∈ es, p e = true) (hlen : rs.length = es.length) :
    responsesTo p es (rs.map some) = rs := by
  induction es generalizing rs with
  | nil =>
    obtain rfl := List.length_eq_zero_iff.mp hlen
    rfl
  | cons e es ih =>
    obtain ⟨r, rs, rfl⟩ := List.exists_cons_of_length_eq_add_one hlen
    obtain ⟨he, hes⟩ := List.forall_mem_cons.mp h
    rw [List.map_cons, responsesTo_cons_of_true he, ih hes (Nat.succ.inj hlen)]
    rfl

end

/-! ## Observers in between (20_memory.md R59, 43_sponge.md R161) -/

/-- No response shows a fault. -/
def NoFault (rs : List (Option Response)) : Prop := ∀ r, some r ∈ rs → r.rerr = 0

theorem noFault_cons {o : Option Response} {rs : List (Option Response)} :
    NoFault (o :: rs) ↔ (∀ r, o = some r → r.rerr = 0) ∧ NoFault rs := by
  simp only [NoFault, List.mem_cons, eq_comm (a := some _), or_imp, forall_and]

theorem noFault_of_succeeded {rs : List (Option Response)} (h : ∀ r ∈ rs, ∃ v, r = some ⟨v, 0⟩) : NoFault rs := by
  intro r hr
  obtain ⟨v, hv⟩ := h _ hr
  cases hv
  rfl

section
variable {e : HostEvent} {es : List HostEvent} {s s' t : State} {rs : List (Option Response)}

/-- An observer is STATUS, RDLANE of a lane, or a wait: it leaves the engine's state and raises no fault. -/
theorem exists_handleEvent_of_isObserver (h : isObserver e = true) (s : State) :
    ∃ t, handleEvent e s = .next t ∧ s.sameEngine t ∧ ∀ r, t.rsp = some r → r.rerr = 0 := by
  have hanswered (v : Lane) (r : Response) (hr : (s.answered v).rsp = some r) : r.rerr = 0 := by
    cases hr
    rfl
  cases e with
  | command cmd d =>
    simp only [isObserver] at h
    split at h
    case h_1 hi => exact ⟨_, transact_of_legal hi s, sameEngine_answered s _, hanswered _⟩
    case h_2 k hi =>
      obtain ⟨-, -, hk⟩ := decode_eq_ok_rdlane_iff.mp hi
      have hexec := exec_rdlane_of_eq (s := s) (i := k) (k := ⟨k.toNat, Nat.lt_succ_of_le hk⟩) rfl
      exact ⟨_, (transact_of_legal hi s).trans hexec, sameEngine_answered s _, hanswered _⟩
    case h_3 => cases h
  | wait => exact ⟨_, rfl, sameEngine_refl s, fun _ hr => by cases hr⟩
  | reset => cases h

theorem isSqueeze_of_isObserver (h : isObserver e = true) : isSqueeze e = false := by
  cases e with
  | command cmd d =>
    refine Bool.eq_false_of_not_eq_true fun hsqueeze => ?_
    obtain rfl : cmd = 0x5000 := eq_of_beq hsqueeze
    simp only [isObserver, decode_squeeze, reduceCtorEq] at h
  | wait | reset => rfl

/-- Without its observers a list of events leaves the same engine and gives the same responses to its SQUEEZEs. -/
theorem exists_serve_of_filter (hsame : s.sameEngine s')
    (hserve : serve (es.filter fun e => !isObserver e) s = some (t, rs)) (hrs : NoFault rs) :
    ∃ t' rs', serve es s' = some (t', rs') ∧ t.sameEngine t' ∧ NoFault rs' ∧
      responsesTo isSqueeze es rs' = responsesTo isSqueeze (es.filter fun e => !isObserver e) rs := by
  induction es generalizing s s' rs with
  | nil =>
    cases hserve
    exact ⟨s', [], rfl, hsame, hrs, rfl⟩
  | cons e es ih =>
    cases he : isObserver e with
    | true =>
      have hskip : (e :: es).filter (fun e => !isObserver e) = es.filter fun e => !isObserver e := by simp [he]
      rw [hskip] at hserve ⊢
      obtain ⟨u, hu, hsame', hrerr⟩ := exists_handleEvent_of_isObserver he s'
      obtain ⟨t', rs', hserve', ht, hrs', hresponses⟩ := ih (sameEngine_trans hsame hsame') hserve hrs
      refine ⟨t', u.rsp :: rs', serve_cons_eq_some_iff.mpr ⟨u, rs', hu, hserve', rfl⟩, ht,
        noFault_cons.mpr ⟨hrerr, hrs'⟩, ?_⟩
      rw [responsesTo_cons_of_false (isSqueeze_of_isObserver he), hresponses]
    | false =>
      have hkeep : (e :: es).filter (fun e => !isObserver e) = e :: es.filter fun e => !isObserver e := by simp [he]
      rw [hkeep] at hserve ⊢
      obtain ⟨u, rs, hu, hrest, rfl⟩ := serve_cons_eq_some_iff.mp hserve
      obtain ⟨hrerr, hrs⟩ := noFault_cons.mp hrs
      obtain ⟨u', hu', hrsp, hsame'⟩ := answersAlike_handleEvent hsame e u hu
      obtain ⟨t', rs', hserve', ht, hrs', hresponses⟩ := ih hsame' hrest hrs
      refine ⟨t', u'.rsp :: rs', serve_cons_eq_some_iff.mpr ⟨u', rs', hu', hserve', rfl⟩, ht,
        noFault_cons.mpr ⟨hrsp ▸ hrerr, hrs'⟩, ?_⟩
      rw [hrsp]
      cases hp : isSqueeze e with
      | true => rw [responsesTo_cons_of_true hp, responsesTo_cons_of_true hp, hresponses]
      | false => rw [responsesTo_cons_of_false hp, responsesTo_cons_of_false hp, hresponses]

end

/-! ## The computation theorem (43_sponge.md section 4) -/

theorem exists_serve_hashCommands {v : BitVec 3} {w : Variant} (hv : variantOfCode v = some w) (m : List Byte) {n : Nat}
    (hn : ∀ k, dlen w = some k → n ≤ k) (s : State) :
    ∃ t rs, serve (hashCommands v m n) s = some (t, rs) ∧ NoFault rs ∧
      responsesTo isSqueeze (hashCommands v m n) rs =
        (List.range n).map (squeezedResponse (rate w) (absorbMessage (rate w) (domain w) m)) ∧
      (dlen w = some n → t.done = true) := by
  obtain ⟨t, rs, hserve, hrs, ht⟩ := exists_serve_init_message hv m s
  obtain ⟨hexec, hu⟩ := exec_final_of_messageAbsorbed ht
  have hfinal := (handleEvent_send (i := .final) rfl t).trans hexec
  have hroom (k : Nat) (hk : dlen (t.finished.answered 0).variant = some k) :
      (t.finished.answered 0).outcnt.toNat + n ≤ k := by
    rw [hu.variant] at hk
    rw [hu.outcnt]
    simpa using hn k hk
  obtain ⟨x, rs', hserve', hrs', hx⟩ := exists_serve_squeezeN n hu.phase (hu.pos ▸ Nat.zero_le _) hroom
  have hbytes := responses_of_serve_squeezeN (standsAt_of_pos_eq_zero hu.pos) hserve' hrs'
  rw [hu.variant, hu.lanes, ← List.range_eq_range', ← Function.comp_def some, ← List.map_map] at hbytes
  have hsqueeze : serve (send .final :: squeezeN n) t = some (x, _) :=
    serve_cons_eq_some_iff.mpr ⟨_, rs', hfinal, hserve', rfl⟩
  refine ⟨x, _, serve_append hserve hsqueeze, noFault_of_succeeded fun r hr => ?_, ?_, fun hfixed => ?_⟩
  · rcases List.mem_append.mp hr with hr | hr
    · exact ⟨0, hrs r hr⟩
    · rcases List.mem_cons.mp hr with rfl | hr
      · exact ⟨0, rfl⟩
      · exact hrs' r hr
  · have hbefore : ∀ e ∈ send (.init v) :: absorbCommands m, isSqueeze e = false := by
      simp [absorbCommands, ← Bool.not_eq_true, isSqueeze_send]
    have hfinal' : isSqueeze (send .final) = false := by simp [← Bool.not_eq_true, isSqueeze_send]
    have hafter : ∀ e ∈ squeezeN n, isSqueeze e = true := by simp [squeezeN, isSqueeze_send]
    have hsplit : hashCommands v m n = (send (.init v) :: absorbCommands m) ++ send .final :: squeezeN n := rfl
    rw [hsplit, responsesTo_append (length_of_serve hserve), responsesTo_eq_nil hbefore (length_of_serve hserve),
      responsesTo_cons_of_false hfinal', hbytes, responsesTo_map_some hafter (by simp [squeezeN])]
    rfl
  · have hcount := hx.outcnt_fixed n (hu.variant ▸ hfixed)
    rw [done_eq_true_iff_of_squeeze hx.phase, hx.variant, hu.variant, hfixed, hcount, hu.outcnt]
    simp

/-- Settles O55: the observers are left out, INIT, the message and FINAL leave the absorbed state, and the SQUEEZEs
respond the stream whose first bytes are the output of Sponge. -/
theorem commandsComputeTheDigest : Obligations.CommandsComputeTheDigest := by
  intro v w m n es s hv hn hfilter
  obtain ⟨t, rs, hserve, hrs, hresponses, hdone⟩ := exists_serve_hashCommands hv m hn s
  rw [← hfilter] at hserve hresponses
  obtain ⟨t', rs', hserve', ht, hrs', hresponses'⟩ := exists_serve_of_filter (sameEngine_refl s) hserve hrs
  refine ⟨t', rs', hserve', hrs', ?_, fun bs hbs => ?_, fun hlength => ?_, fun hfixed => ?_⟩
  · have hmin := rate_ge w
    have hmax := rate_le w
    rw [hresponses', hresponses, sponge_eq_map (by omega) (by omega), List.map_map, List.map_map]
    rfl
  · unfold digest at hbs
    split at hbs <;> cases hbs
    rfl
  · rw [digest, if_pos hlength]
    rfl
  · obtain ⟨-, hvariant, hphase, -, houtcnt, -⟩ := ht
    rw [← hdone hfixed, State.done, State.done, State.delivered, State.delivered, hvariant, hphase, houtcnt]

end Sys2Proof.Machine

namespace Sys2Proof.Machine

/-! ## The raw permutation test (45_lane_access_system.md R199) -/

/-- WRLANE of each lane in `l` with the lanes of `A`. -/
def wrLanes (A : Lanes) (l : List (Fin 25)) : List HostEvent :=
  l.map fun i => send (.wrlane (BitVec.ofNat 5 i.val) (lane A i))

/-- RDLANE of each lane in `l`. -/
def rdLanes (l : List (Fin 25)) : List HostEvent := l.map fun i => send (.rdlane (BitVec.ofNat 5 i.val))

section
variable (i : Fin 25) (d : Lane) {s : State}

theorem toNat_ofNat_lane : (BitVec.ofNat 5 i.val).toNat = i.val := by
  rw [BitVec.toNat_ofNat, Nat.mod_eq_of_lt (by omega)]

theorem laneIndexOk_ofNat : laneIndexOk (BitVec.ofNat 5 i.val) = true := by
  rw [laneIndexOk, toNat_ofNat_lane]
  exact decide_eq_true (Nat.le_of_lt_succ i.isLt)

theorem handleEvent_send_wrlane (h : s.phase = .idle) : handleEvent (send (.wrlane (BitVec.ofNat 5 i.val) d)) s =
    .next (State.answered { s with lanes := setLane s.lanes i d } 0) :=
  (handleEvent_send (i := .wrlane _ d) (laneIndexOk_ofNat i) s).trans (exec_wrlane_of_idle (toNat_ofNat_lane i) h d)

theorem handleEvent_send_rdlane (s : State) : handleEvent (send (.rdlane (BitVec.ofNat 5 i.val))) s =
    .next (s.answered (lane s.lanes i)) :=
  (handleEvent_send (i := .rdlane _) (laneIndexOk_ofNat i) s).trans (exec_rdlane_of_eq (toNat_ofNat_lane i))

end

/-- In IDLE the lanes written are those of `A`, and the others stay. -/
theorem exists_serve_wrLanes (A : Lanes) (l : List (Fin 25)) {s : State} (h : s.phase = .idle) :
    ∃ t rs, serve (wrLanes A l) s = some (t, rs) ∧ (∀ r ∈ rs, ∃ v, r = some ⟨v, 0⟩) ∧ t.phase = .idle ∧
      ∀ j, lane t.lanes j = if j ∈ l then lane A j else lane s.lanes j := by
  induction l generalizing s with
  | nil => exact ⟨s, [], rfl, by simp, h, by simp⟩
  | cons i l ih =>
    have hevent := handleEvent_send_wrlane i (lane A i) h
    obtain ⟨t, rs, hserve, hrs, hphase, hlanes⟩ :=
      ih (s := State.answered { s with lanes := setLane s.lanes i (lane A i) } 0) h
    refine ⟨t, _, serve_cons_eq_some_iff.mpr ⟨_, rs, hevent, hserve, rfl⟩,
      List.forall_mem_cons.mpr ⟨⟨0, rfl⟩, hrs⟩, hphase, fun j => ?_⟩
    rw [hlanes, answered_lanes, lane_setLane]
    by_cases hji : j = i
    · simp [hji]
    · simp [hji]

theorem exists_serve_wrState (A : Lanes) {s : State} (h : s.phase = .idle) :
    ∃ t rs, serve (wrState A) s = some (t, rs) ∧ (∀ r ∈ rs, ∃ v, r = some ⟨v, 0⟩) ∧ t.phase = .idle ∧ t.lanes = A := by
  obtain ⟨t, rs, hserve, hrs, hphase, hlanes⟩ := exists_serve_wrLanes A (List.finRange 25) h
  exact ⟨t, rs, hserve, hrs, hphase, lanes_ext_index fun j => (hlanes j).trans (if_pos (List.mem_finRange j))⟩

/-- RDLANE responds the lanes and changes nothing. -/
theorem exists_serve_rdLanes (l : List (Fin 25)) (s : State) :
    ∃ t, serve (rdLanes l) s = some (t, l.map fun i => some ⟨lane s.lanes i, 0⟩) ∧ s.sameEngine t := by
  induction l generalizing s with
  | nil => exact ⟨s, rfl, sameEngine_refl s⟩
  | cons i l ih =>
    have hevent := handleEvent_send_rdlane i s
    obtain ⟨t, hserve, hsame⟩ := ih (s.answered (lane s.lanes i))
    exact ⟨t, serve_cons_eq_some_iff.mpr ⟨_, _, hevent, hserve, rfl⟩,
      sameEngine_trans (sameEngine_answered s _) hsame⟩

/-- Settles O56: CLEAR leads to IDLE, the 25 writes make the lanes those of `A`, PERMUTE permutes them, and the 25 reads
respond them. -/
theorem rawPermutationTest : Obligations.RawPermutationTest := by
  intro A s
  have hclear : handleEvent (send .clear) s = .next (s.cleared.answered 0) :=
    (handleEvent_send (i := .clear) rfl s).trans (exec_clear s)
  obtain ⟨t, rs, hserve, hrs, hphase, hlanes⟩ := exists_serve_wrState A (s := s.cleared.answered 0) rfl
  have hpermute := (handleEvent_send (i := .permute) rfl t).trans (exec_permute_of_idle hphase)
  rw [hlanes] at hpermute
  obtain ⟨u, hread, hulanes, -, huphase, -⟩ :=
    exists_serve_rdLanes (List.finRange 25) (State.answered { t with lanes := keccakP A } 0)
  have hload := serve_cons_eq_some_iff.mpr ⟨_, rs, hclear, hserve, rfl⟩
  have htest := serve_append hload (serve_cons_eq_some_iff.mpr ⟨_, _, hpermute, hread, rfl⟩)
  have hlen : rs.length = 25 := (length_of_serve hserve).trans (by simp [wrState])
  refine ⟨u, _, htest, fun r hr => ?_, ?_, huphase.trans hphase, hulanes⟩
  · rcases List.mem_append.mp hr with hr | hr
    · rcases List.mem_cons.mp hr with rfl | hr
      · exact ⟨0, rfl⟩
      · exact hrs r hr
    · rcases List.mem_cons.mp hr with rfl | hr
      · exact ⟨0, rfl⟩
      · obtain ⟨i, -, rfl⟩ := List.mem_map.mp hr
        exact ⟨_, rfl⟩
  · simp [List.drop_append, hlen]

/-! ## The clocked port (30_encoding.md R76, 70_reset_and_hazards.md R250) -/

section
variable {cfg : Config} {i : PortIn}

theorem portOut_of_rst (h : i.rst = true) (c : Clocked) : portOut i c = ⟨false, none⟩ :=
  if_pos h

theorem clockEdge_of_rst (h : i.rst = true) (c : Clocked) : clockEdge cfg i c = .next ⟨takeReset c.core, .ready⟩ :=
  if_pos h

end

/-- Settles O58: `rst` is looked at before the flight, at the outputs and at the edge. -/
theorem resetAbandonsTheCommandInFlight : Obligations.ResetAbandonsTheCommandInFlight := by
  refine fun cfg c i hrst => ⟨portOut_of_rst hrst c, clockEdge_of_rst hrst c, fun j hj => ?_⟩
  rw [portOut_ready hj]

/-- The response still to come of the command in flight. -/
def Flight.due : Flight → Option Response
  | .ready => none
  | .busy _ r => r

/-- The commands accepted in a sequence of cycles: those offered while the engine is ready (R76). -/
def acceptedCommands (ins : List PortIn) (outs : List PortOut) : List HostEvent :=
  (ins.zip outs).filterMap fun io =>
    if io.1.cmdValid && io.2.cmdReady then some (.command io.1.cmd io.1.wdata) else none

/-- The responses given in a sequence of cycles. -/
def responsesGiven (outs : List PortOut) : List Response := outs.filterMap fun o => o.rsp

section
variable {cfg : Config} {i : PortIn} {ins : List PortIn} {o : PortOut} {outs : List PortOut}

theorem acceptedCommands_cons_of_valid (hvalid : i.cmdValid = true) (hready : o.cmdReady = true) :
    acceptedCommands (i :: ins) (o :: outs) = .command i.cmd i.wdata :: acceptedCommands ins outs := by
  simp [acceptedCommands, hvalid, hready]

theorem acceptedCommands_cons_of_not_valid (hvalid : i.cmdValid = false) :
    acceptedCommands (i :: ins) (o :: outs) = acceptedCommands ins outs := by
  simp [acceptedCommands, hvalid]

theorem acceptedCommands_cons_of_not_ready (hready : o.cmdReady = false) :
    acceptedCommands (i :: ins) (o :: outs) = acceptedCommands ins outs := by
  simp [acceptedCommands, hready]

theorem responsesGiven_cons : responsesGiven (o :: outs) = o.rsp.toList ++ responsesGiven outs := by
  cases h : o.rsp <;> simp [responsesGiven, h]

/-- A cycle and the cycles after it. -/
theorem runClock_cons_eq_some_iff {c d : Clocked} : runClock cfg (i :: ins) c = some (d, outs) ↔
    ∃ c' outs', clockEdge cfg i c = .next c' ∧ runClock cfg ins c' = some (d, outs') ∧
      outs = portOut i c :: outs' := by
  rw [runClock]
  cases clockEdge cfg i c <;> simp [eq_comm]

theorem clockEdge_accept_eq_next {s : State} {c : Clocked} (hrst : i.rst = false) (hvalid : i.cmdValid = true)
    (h : clockEdge cfg i ⟨s, .ready⟩ = .next c) :
    ∃ t, transact i.cmd i.wdata s = .next t ∧
      c = ⟨t, .busy (cfg.latency i.cmd i.wdata s - 1) t.rsp⟩ := by
  simp only [clockEdge, accept, hrst, hvalid] at h
  cases ht : transact i.cmd i.wdata s <;> simp_all

/-- From any point of a flight on: the response in flight comes first, and then those of the commands accepted. -/
theorem exists_serve_of_runClock {c d : Clocked} (hrst : ∀ i ∈ ins, i.rst = false)
    (hrun : runClock cfg ins c = some (d, outs)) (hend : d.flight = .ready) :
    ∃ rs, serve (acceptedCommands ins outs) c.core = some (d.core, rs) ∧
      responsesGiven outs = c.flight.due.toList ++ rs.filterMap id := by
  induction ins generalizing c outs with
  | nil =>
    cases hrun
    exact ⟨[], rfl, by rw [hend]; rfl⟩
  | cons i ins ih =>
    obtain ⟨hi, hins⟩ := List.forall_mem_cons.mp hrst
    obtain ⟨c', outs, hedge, hrest, rfl⟩ := runClock_cons_eq_some_iff.mp hrun
    obtain ⟨rs, hserve, hgiven⟩ := ih hins hrest
    obtain ⟨s, flight⟩ := c
    rw [responsesGiven_cons, hgiven]
    cases flight with
    | ready =>
      rw [portOut_ready hi]
      cases hvalid : i.cmdValid with
      | true =>
        obtain ⟨t, ht, rfl⟩ := clockEdge_accept_eq_next hi hvalid hedge
        refine ⟨t.rsp :: rs, ?_, ?_⟩
        · rw [acceptedCommands_cons_of_valid hvalid rfl]
          exact serve_cons_eq_some_iff.mpr ⟨t, rs, ht, hserve, rfl⟩
        · cases t.rsp <;> simp [Flight.due]
      | false =>
        cases (clockEdge_idle hi hvalid s).symm.trans hedge
        exact ⟨rs, (congrArg (serve · s) (acceptedCommands_cons_of_not_valid hvalid)).trans hserve, rfl⟩
    | busy left r =>
      cases left with
      | zero =>
        cases (clockEdge_busy_zero hi s r).symm.trans hedge
        rw [portOut_busy_zero hi]
        exact ⟨rs, (congrArg (serve · s) (acceptedCommands_cons_of_not_ready rfl)).trans hserve, rfl⟩
      | succ n =>
        cases (clockEdge_busy_succ hi s n r).symm.trans hedge
        rw [portOut_busy_succ hi]
        exact ⟨rs, (congrArg (serve · s) (acceptedCommands_cons_of_not_ready rfl)).trans hserve, rfl⟩

end

/-- Settles O59: with nothing in flight at the start, the responses given are those of the commands accepted. -/
theorem clockedPortRefinesTheStep : Obligations.ClockedPortRefinesTheStep :=
  fun _ _ _ _ _ hrst hrun hend => exists_serve_of_runClock hrst hrun hend

end Sys2Proof.Machine
